-- ==== Sys2Proof/Word.lean ====
section
/-! DEFINITION. The word types of TIMJOY (00_scope.md R9: bit 0 is the least significant, every value is unsigned). -/

namespace Sys2Proof

/-- The value of a register-file cell, and the byte a read returns (10_state.md R11, 20_memory.md R43). -/
abbrev Byte := BitVec 8

/-- Half a byte: the joypad read is two of them (41_joypad.md R102). -/
abbrev Nibble := BitVec 4

/-- A transaction word (30_encoding.md R60). -/
abbrev TxWord := BitVec 32

end Sys2Proof
end

