-- ==== Sys2Proof/Syntax.lean ====
section
/-! DEFINITION. The operations of TIMJOY as syntax (30_encoding.md R65, R70): one constructor of `Instr` for each row of
spec/opcode_table.json. -/

namespace Sys2Proof

/-- The six register-file cells, in `rsel` order (10_state.md R11). -/
inductive Reg where
  | DIV | TIMA | TMA | TAC | IF | JOYP
deriving DecidableEq, Repr

/-- The eight buttons, in the order of 30_encoding.md R62: the action group, then the direction group. -/
inductive Button where
  | a | b | select | start | right | left | up | down
deriving DecidableEq, Repr

/-- The sixteen operations. R70's `rd r` and `wr r v` are spelled out, one constructor a cell, as the opcode table has
one row a cell. -/
inductive Instr where
  /-- `Timer.step(cycles)`, 40_timer.md R80. Any natural number; a word carries 24 bits of it (30_encoding.md R64). -/
  | step (cycles : Nat)
  /-- `Joypad.press(button)`, 41_joypad.md R100. -/
  | press (x : Button)
  /-- `Joypad.release(button)`, 41_joypad.md R101. -/
  | release (x : Button)
  /-- 42_regfile_bus.md R120. -/
  | rdDiv
  /-- 42_regfile_bus.md R121. -/
  | rdTima
  /-- 42_regfile_bus.md R122. -/
  | rdTma
  /-- 42_regfile_bus.md R123. -/
  | rdTac
  /-- 42_regfile_bus.md R124. -/
  | rdIf
  /-- `Joypad.read()`, 41_joypad.md R102. -/
  | rdJoyp
  /-- 42_regfile_bus.md R129 (decodes, refused). -/
  | wrDiv (v : Byte)
  /-- 42_regfile_bus.md R130 (decodes, refused). -/
  | wrTima (v : Byte)
  /-- 42_regfile_bus.md R125. -/
  | wrTma (v : Byte)
  /-- 42_regfile_bus.md R126. -/
  | wrTac (v : Byte)
  /-- 42_regfile_bus.md R127. -/
  | wrIf (v : Byte)
  /-- 42_regfile_bus.md R128. -/
  | wrJoyp (v : Byte)
  /-- Emulator reset, 70_reset_and_hazards.md R170. -/
  | reset
deriving DecidableEq, Repr

end Sys2Proof
end

