-- ==== Sys2Proof/WellFormed.lean ====
section
/-! DEFINITION. Which operations a transaction word can carry. -/

namespace Sys2Proof

/-- A cycle count fits the 24-bit field of the word (30_encoding.md R61, R64). Every button, cell and byte fits its
field by its type, so this is the only check; the MEANING of `step n` is defined for every `n` (R64). -/
def Instr.wellFormed : Instr → Bool
  | .step n => decide (n < 2 ^ 24)
  | .press _ => true
  | .release _ => true
  | .rdDiv => true
  | .rdTima => true
  | .rdTma => true
  | .rdTac => true
  | .rdIf => true
  | .rdJoyp => true
  | .wrDiv _ => true
  | .wrTima _ => true
  | .wrTma _ => true
  | .wrTac _ => true
  | .wrIf _ => true
  | .wrJoyp _ => true
  | .reset => true

end Sys2Proof
end

