-- ==== Sys2Proof/Decode.lean ====
section
/-! DEFINITION. From a transaction word to an operation or a named rejection, and back (30_encoding.md R60 to R66).

The word is read whole, bit 0 least significant. No memory holds it, so it has no byte order (R60, R43; log 15). -/

namespace Sys2Proof

/-- Why a word is illegal: the four clauses of 30_encoding.md R66. -/
inductive DecodeError where
  /-- `op` is 0000 or 0110 to 1110. -/
  | reservedOp
  /-- `T[27:24]` is not zero. -/
  | reservedNibble
  /-- A field the format says is all zero is not. -/
  | reservedField
  /-- `rsel` is 6 or 7. -/
  | reservedRsel
deriving DecidableEq, Repr

/-- `btn` of 30_encoding.md R62. -/
def Button.id : Button → BitVec 3
  | .a => 0
  | .b => 1
  | .select => 2
  | .start => 3
  | .right => 4
  | .left => 5
  | .up => 6
  | .down => 7

/-- The button a 3-bit `btn` names: all eight values are legal (R62). -/
def Button.ofId (k : BitVec 3) : Button :=
  match k.toNat with
  | 0 => .a
  | 1 => .b
  | 2 => .select
  | 3 => .start
  | 4 => .right
  | 5 => .left
  | 6 => .up
  | _ => .down

/-- `rsel` of 30_encoding.md R63. -/
def Reg.sel : Reg → BitVec 3
  | .DIV => 0
  | .TIMA => 1
  | .TMA => 2
  | .TAC => 3
  | .IF => 4
  | .JOYP => 5

/-- The cell a 3-bit `rsel` names; 6 and 7 name none (R63, 20_memory.md R42). -/
def Reg.ofSel (k : BitVec 3) : Option Reg :=
  match k.toNat with
  | 0 => some .DIV
  | 1 => some .TIMA
  | 2 => some .TMA
  | 3 => some .TAC
  | 4 => some .IF
  | 5 => some .JOYP
  | _ => none

/-- The operation `RD.r` (R65). -/
def Instr.rd : Reg → Instr
  | .DIV => .rdDiv
  | .TIMA => .rdTima
  | .TMA => .rdTma
  | .TAC => .rdTac
  | .IF => .rdIf
  | .JOYP => .rdJoyp

/-- The operation `WR.r v` (R65). -/
def Instr.wr (r : Reg) (v : Byte) : Instr :=
  match r with
  | .DIV => .wrDiv v
  | .TIMA => .wrTima v
  | .TMA => .wrTma v
  | .TAC => .wrTac v
  | .IF => .wrIf v
  | .JOYP => .wrJoyp v

/-- Format T-STEP (R61): `T[23:0]` zero-extended to a natural number (R64). -/
def decodeStep (w : TxWord) : Except DecodeError Instr :=
  .ok (.step (w.extractLsb' 0 24).toNat)

/-- Format T-BTN (R61): `T[23:3]` all zero, `btn` in `T[2:0]`. -/
def decodeButton (mk : Button → Instr) (w : TxWord) : Except DecodeError Instr :=
  if w.extractLsb' 3 21 = 0 then .ok (mk (Button.ofId (w.extractLsb' 0 3))) else .error .reservedField

/-- Format T-BUS, read (R61): `T[23:11]` and the data bits all zero, `rsel` in `T[10:8]`. -/
def decodeRead (w : TxWord) : Except DecodeError Instr :=
  if w.extractLsb' 11 13 = 0 then
    match Reg.ofSel (w.extractLsb' 8 3) with
    | some r => if w.extractLsb' 0 8 = 0 then .ok (Instr.rd r) else .error .reservedField
    | none => .error .reservedRsel
  else .error .reservedField

/-- Format T-BUS, write (R61): `T[23:11]` all zero, `rsel` in `T[10:8]`, the byte in `T[7:0]`. -/
def decodeWrite (w : TxWord) : Except DecodeError Instr :=
  if w.extractLsb' 11 13 = 0 then
    match Reg.ofSel (w.extractLsb' 8 3) with
    | some r => .ok (Instr.wr r (w.extractLsb' 0 8))
    | none => .error .reservedRsel
  else .error .reservedField

/-- Format T-SYS (R61): the payload all zero. -/
def decodeSystem (w : TxWord) : Except DecodeError Instr :=
  if w.extractLsb' 0 24 = 0 then .ok .reset else .error .reservedField

/-- The decoder, total over the 32-bit words (R66): `op` in `T[31:28]`, `T[27:24]` zero (R60). -/
def decode (w : TxWord) : Except DecodeError Instr :=
  if w.extractLsb' 24 4 = 0 then
    match (w.extractLsb' 28 4).toNat with
    | 1 => decodeStep w
    | 2 => decodeButton .press w
    | 3 => decodeButton .release w
    | 4 => decodeRead w
    | 5 => decodeWrite w
    | 15 => decodeSystem w
    | _ => .error .reservedOp
  else .error .reservedNibble

/-- The word of a read of cell `r` (R61, R65). -/
def encodeRead (r : Reg) : TxWord :=
  0x40000000#32 ||| (r.sel.setWidth 32 <<< 8)

/-- The word of a write of `v` to cell `r` (R61, R65). -/
def encodeWrite (r : Reg) (v : Byte) : TxWord :=
  0x50000000#32 ||| (r.sel.setWidth 32 <<< 8) ||| v.setWidth 32

/-- The word of a well-formed operation (R61, R65). -/
def encode : Instr → TxWord
  | .step n => 0x10000000#32 ||| BitVec.ofNat 32 n
  | .press x => 0x20000000#32 ||| x.id.setWidth 32
  | .release x => 0x30000000#32 ||| x.id.setWidth 32
  | .rdDiv => encodeRead .DIV
  | .rdTima => encodeRead .TIMA
  | .rdTma => encodeRead .TMA
  | .rdTac => encodeRead .TAC
  | .rdIf => encodeRead .IF
  | .rdJoyp => encodeRead .JOYP
  | .wrDiv v => encodeWrite .DIV v
  | .wrTima v => encodeWrite .TIMA v
  | .wrTma v => encodeWrite .TMA v
  | .wrTac v => encodeWrite .TAC v
  | .wrIf v => encodeWrite .IF v
  | .wrJoyp v => encodeWrite .JOYP v
  | .reset => 0xF0000000#32

/-- The masks and patterns of the opcode map (R65), in its order: a word matches a row when `w &&& mask` is the
pattern. The decoder above does not use this list; statements hold the two against each other. -/
def opcodeMap : List (TxWord × TxWord) :=
  [(0xFF000000, 0x10000000), (0xFFFFFFF8, 0x20000000), (0xFFFFFFF8, 0x30000000),
   (0xFFFFFFFF, 0x40000000), (0xFFFFFFFF, 0x40000100), (0xFFFFFFFF, 0x40000200),
   (0xFFFFFFFF, 0x40000300), (0xFFFFFFFF, 0x40000400), (0xFFFFFFFF, 0x40000500),
   (0xFFFFFF00, 0x50000000), (0xFFFFFF00, 0x50000100), (0xFFFFFF00, 0x50000200),
   (0xFFFFFF00, 0x50000300), (0xFFFFFF00, 0x50000400), (0xFFFFFF00, 0x50000500),
   (0xFFFFFFFF, 0xF0000000)]

/-- The transaction word whose low `nbits` bits are those of `w` and whose other bits are 0. -/
def tableWord (nbits w : Nat) : TxWord :=
  BitVec.ofNat 32 (w % 2 ^ nbits)

/-- The instruction the decoder reads from a word numbered as spec/opcode_table.json numbers it. -/
def decodeTableWord (nbits w : Nat) : Option Instr :=
  match decode (tableWord nbits w) with
  | .ok i => some i
  | .error _ => none

end Sys2Proof
end

