-- ==== Sys2Proof/Config.lean ====
section
/-! DEFINITION. The parameters of 00_scope.md R6 that the spec leaves OPEN, as plain data.

A `Platform` is one choice of all of them. It is a field of State (log 4): no operation changes it, and a statement over
every state is a statement over every choice. The values `State.reset` carries stand in Machine/Defaults.lean. -/

namespace Sys2Proof

/-- Six bytes, one a cell: the register file, and the type of the parameter `RF_RESET` (10_state.md R10, R29). -/
structure RegFile where
  DIV : Byte
  TIMA : Byte
  TMA : Byte
  TAC : Byte
  IF : Byte
  JOYP : Byte
deriving DecidableEq, Repr

/-- The platform bus addresses `ADDR_*` (20_memory.md R41). Numbers only: the spec gives them no width. -/
structure AddrMap where
  DIV : Nat
  TIMA : Nat
  TMA : Nat
  TAC : Nat
  IF : Nat
  JOYP : Nat
deriving DecidableEq, Repr

/-- `JOYP_HI`, a total function from a byte to 4 bits (41_joypad.md R105), written as data: the value `base` everywhere
but at the bytes listed, where the first entry for a byte counts. Every function has such a table. -/
structure JoypHi where
  base : Nibble
  listed : List (Byte × Nibble)
deriving DecidableEq, Repr

/-- The OPEN parameters of 00_scope.md R6. The bit numbers carry their ranges in their types. -/
structure Platform where
  /-- `TAC_EN_BIT` (D5). -/
  tacEnBit : Fin 8
  /-- `TAC_CS_LO` (D5). -/
  tacCsLo : Fin 7
  /-- `IF_TIMER_BIT` (D6). -/
  ifTimerBit : Fin 8
  /-- `IF_JOYPAD_BIT` (D6). -/
  ifJoypadBit : Fin 8
  /-- `ADDR_DIV` to `ADDR_JOYP` (D7). -/
  addr : AddrMap
  /-- `JOYP_HI` (D8). -/
  joypHi : JoypHi
  /-- `RF_RESET` (D9). -/
  rfReset : RegFile
deriving DecidableEq, Repr

/-- The six addresses in `rsel` order. -/
def AddrMap.toList (m : AddrMap) : List Nat :=
  [m.DIV, m.TIMA, m.TMA, m.TAC, m.IF, m.JOYP]

/-- The constraints 00_scope.md R6 puts on the OPEN parameters (the ranges are in the types). -/
abbrev Platform.Legal (p : Platform) : Prop :=
  p.tacEnBit.val ≠ p.tacCsLo.val ∧ p.tacEnBit.val ≠ p.tacCsLo.val + 1 ∧
    p.ifTimerBit ≠ p.ifJoypadBit ∧ p.addr.toList.Nodup

end Sys2Proof
end

