-- ==== Sys2Proof/Machine/Defaults.lean ====
section
/-! DEFINITION. The choice of the OPEN parameters that `State.reset` carries.

No statement rests on these values: a statement about an open parameter holds for every `Platform` (log 4, 5, 6, 22). -/

namespace Sys2Proof.Machine

/-- PRESUMED (log 22): the default addresses of 20_memory.md R41, general knowledge in the spec's own words. -/
def defaultAddr : AddrMap :=
  { DIV := 0xFF04, TIMA := 0xFF05, TMA := 0xFF06, TAC := 0xFF07, IF := 0xFF0F, JOYP := 0xFF00 }

/-- DESIGN CHOICE (log 5): the recommended instance of 41_joypad.md R105, all four bits 1 for every byte. -/
def defaultJoypHi : JoypHi :=
  { base := 0b1111, listed := [] }

/-- DESIGN CHOICE (log 6): the spec gives `RF_RESET` no default (00_scope.md R6, D9); the model takes zero. -/
def defaultRfReset : RegFile :=
  { DIV := 0, TIMA := 0, TMA := 0, TAC := 0, IF := 0, JOYP := 0 }

/-- PRESUMED (log 4): the default bit numbers of 00_scope.md R6, with the three choices above. -/
def defaultPlatform : Platform :=
  { tacEnBit := 2, tacCsLo := 0, ifTimerBit := 2, ifJoypadBit := 4,
    addr := defaultAddr, joypHi := defaultJoypHi, rfReset := defaultRfReset }

end Sys2Proof.Machine
end

