-- ==== Sys2Proof/Machine/State.lean ====
section
/-! DEFINITION. The state of TIMJOY (10_state.md R10), the reasons a step can stop, and the state after reset. -/

namespace Sys2Proof.Machine

/-- The eight button flags, `true` = pressed (10_state.md R24). -/
structure Buttons where
  a : Bool
  b : Bool
  select : Bool
  start : Bool
  right : Bool
  left : Bool
  up : Bool
  down : Bool
deriving DecidableEq, Repr

/-- The three groups of 10_state.md R10 (`rf`; `divAcc` and `timaAcc`; `btn`), then the model's own fields. -/
structure State where
  /-- The six register-file cells (R11). -/
  rf : RegFile
  /-- `div_acc` (R20). -/
  divAcc : Nat
  /-- `tima_acc` (R21). -/
  timaAcc : Nat
  /-- `btn` (R24). -/
  btn : Buttons
  /-- The model's own: the OPEN parameters, which no operation changes (R28; log 4). -/
  platform : Platform
  /-- The model's own: the transaction words the agents have issued and the block has not run, oldest first
  (00_scope.md R8; log 1). -/
  requests : List TxWord
  /-- The model's own: the byte the last operation returned, if it returned one (30_encoding.md R71; log 3). -/
  response : Option Byte
deriving DecidableEq, Repr

/-- No operation raises an exception, fault or error: "the list of synchronous exceptions is empty"
(60_exceptions.md R140; log 24). The type has no constructor, so no step can end in a fault. -/
inductive Fault where
deriving DecidableEq, Repr

/-- The requests the model gives no meaning (60_exceptions.md R141). -/
inductive Refusal where
  /-- Raised by an arm of `exec` whose instruction has no meaning yet: none is left. Safe. -/
  | notModelled (mnemonic : String)
  /-- Raised by the step when the next word matches no row of the opcode map (30_encoding.md R66; log 9). Safe: no
  claim can be proved of a run past it. -/
  | illegalWord (why : DecodeError)
  /-- Raised by `WR.DIV`, which 42_regfile_bus.md R129 refuses (log 8). Safe. -/
  | writeOfDivider
  /-- Raised by `WR.TIMA`, which 42_regfile_bus.md R130 refuses (log 8). Safe. -/
  | writeOfTimerCounter
deriving DecidableEq, Repr

/-- Every button released (10_state.md R29, D12). -/
def Buttons.released : Buttons :=
  { a := false, b := false, select := false, start := false,
    right := false, left := false, up := false, down := false }

/-- A newly created block on platform `p` (10_state.md R29, 70_reset_and_hazards.md R171), with no request issued. -/
def State.created (p : Platform) : State :=
  { rf := p.rfReset, divAcc := 0, timaAcc := 0, btn := Buttons.released, platform := p, requests := [], response := none }

/-- The machine right after reset: a newly created block on the default platform (log 4, 5, 6, 7, 22). -/
def State.reset : State :=
  State.created defaultPlatform

end Sys2Proof.Machine
end

