-- ==== Sys2Proof/Machine/Operands.lean ====
section
/-! DEFINITION. How an operation's operands name state: cells, buttons, the fields of `TAC` and `JOYP`, the parameters. -/

namespace Sys2Proof.Machine

/-- `RF[r]` (00_scope.md R9). -/
def cellOf (rf : RegFile) : Reg → Byte
  | .DIV => rf.DIV
  | .TIMA => rf.TIMA
  | .TMA => rf.TMA
  | .TAC => rf.TAC
  | .IF => rf.IF
  | .JOYP => rf.JOYP

/-- `RF[r] <- v` (00_scope.md R9). -/
def setCell (rf : RegFile) (r : Reg) (v : Byte) : RegFile :=
  match r with
  | .DIV => { rf with DIV := v }
  | .TIMA => { rf with TIMA := v }
  | .TMA => { rf with TMA := v }
  | .TAC => { rf with TAC := v }
  | .IF => { rf with IF := v }
  | .JOYP => { rf with JOYP := v }

/-- `btn[x]` (10_state.md R24). -/
def flagOf (bs : Buttons) : Button → Bool
  | .a => bs.a
  | .b => bs.b
  | .select => bs.select
  | .start => bs.start
  | .right => bs.right
  | .left => bs.left
  | .up => bs.up
  | .down => bs.down

/-- `btn[x] <- v` (10_state.md R24: each flag is independently mutable). -/
def setFlag (bs : Buttons) (x : Button) (v : Bool) : Buttons :=
  match x with
  | .a => { bs with a := v }
  | .b => { bs with b := v }
  | .select => { bs with select := v }
  | .start => { bs with start := v }
  | .right => { bs with right := v }
  | .left => { bs with left := v }
  | .up => { bs with up := v }
  | .down => { bs with down := v }

/-- The four values of the clock-select field (40_timer.md R82: `enum{0,1,2,3}`). -/
inductive ClockSelect where
  | cs0 | cs1 | cs2 | cs3
deriving DecidableEq, Repr

/-- `TAC` decoded, once a STEP: "a small tagged structure (enabled: bool, clock-select: enum{0,1,2,3})" (R82). -/
structure TimerControl where
  enabled : Bool
  clockSelect : ClockSelect
deriving DecidableEq, Repr

/-- The clock select two bits name. -/
def clockSelectOf (cs : BitVec 2) : ClockSelect :=
  match cs.toNat with
  | 0 => .cs0
  | 1 => .cs1
  | 2 => .cs2
  | _ => .cs3

/-- `EN = TAC[TAC_EN_BIT]`, `CS = TAC[TAC_CS_LO+1 : TAC_CS_LO]` (10_state.md R16). -/
def timerControl (p : Platform) (tac : Byte) : TimerControl :=
  { enabled := tac.getLsbD p.tacEnBit.val, clockSelect := clockSelectOf (tac.extractLsb' p.tacCsLo.val 2) }

/-- `TIMA_PERIOD[CS]` (10_state.md R17: "index 0 = 1024, not the numerically smallest"). -/
def timaPeriod : ClockSelect → Nat
  | .cs0 => 1024
  | .cs1 => 16
  | .cs2 => 64
  | .cs3 => 256

/-- Cycles per divider increment (40_timer.md R81). -/
def divPeriod : Nat := 256

/-- The action group is selected: bit 5 of the stored `JOYP` is 0 (10_state.md R19). -/
def actionSelected (sel : Byte) : Bool := !sel.getLsbD 5

/-- The direction group is selected: bit 4 of the stored `JOYP` is 0 (10_state.md R19). -/
def directionSelected (sel : Byte) : Bool := !sel.getLsbD 4

/-- `JOYP_HI(sel)` (41_joypad.md R105). -/
def joypHiAt (h : JoypHi) (sel : Byte) : Nibble :=
  (h.listed.lookup sel).getD h.base

/-- `ADDR_r` (20_memory.md R41). -/
def addrOf (m : AddrMap) : Reg → Nat
  | .DIV => m.DIV
  | .TIMA => m.TIMA
  | .TMA => m.TMA
  | .TAC => m.TAC
  | .IF => m.IF
  | .JOYP => m.JOYP

/-- The platform's address decoder: the cell a bus address names, none for "every other address of the platform"
(20_memory.md R41). No operation of the block uses it. -/
def cellAt (m : AddrMap) (addr : Nat) : Option Reg :=
  [Reg.DIV, .TIMA, .TMA, .TAC, .IF, .JOYP].find? (fun r => addrOf m r == addr)

end Sys2Proof.Machine
end

