-- ==== Sys2Proof/Machine/Flags.lean ====
section
/-! DEFINITION. The only flags of the block: the two interrupt bits of `IF` (10_state.md R26).

The block RAISES interrupts and takes none (60_exceptions.md R149): raising is `setIrq`, shared by STEP and PRESS. There
is no exception entry and no return from one to model. -/

namespace Sys2Proof.Machine

/-- `T_BIT = 1 << IF_TIMER_BIT` (00_scope.md R9). -/
def timerBit (p : Platform) : Byte := 1#8 <<< p.ifTimerBit.val

/-- `J_BIT = 1 << IF_JOYPAD_BIT` (00_scope.md R9). -/
def joypadBit (p : Platform) : Byte := 1#8 <<< p.ifJoypadBit.val

/-- `set_irq(m)`: `RF[IF] <- RF[IF] | m` (20_memory.md R47). -/
def setIrq (m : Byte) (rf : RegFile) : RegFile :=
  { rf with IF := rf.IF ||| m }

/-- The timer interrupt is pending (60_exceptions.md R145); also the output `irq_timer` (R150). -/
def State.irqTimer (s : State) : Bool := s.rf.IF.getLsbD s.platform.ifTimerBit.val

/-- The joypad interrupt is pending (60_exceptions.md R145); also the output `irq_joypad` (R150). -/
def State.irqJoypad (s : State) : Bool := s.rf.IF.getLsbD s.platform.ifJoypadBit.val

end Sys2Proof.Machine
end

