-- ==== Sys2Proof/Machine/Ops.lean ====
section
/-! DEFINITION. The operations over State that the meanings share, and the fetch of the next request.

The spec gives the block no exception entry and no return from one (60_exceptions.md R149), so there is none here. -/

namespace Sys2Proof.Machine

/-- The outcome every operation of the block ends in. -/
abbrev Result := Host.Outcome State Fault Refusal

/-- What the operation returns: a byte for RD, nothing for every other operation (30_encoding.md R71). -/
def State.respond (v : Option Byte) (s : State) : State :=
  { s with response := v }

/-- `RF <- rf`. -/
def State.putRegs (rf : RegFile) (s : State) : State :=
  { s with rf := rf }

/-- `div_acc <- n`. -/
def State.putDivAcc (n : Nat) (s : State) : State :=
  { s with divAcc := n }

/-- `tima_acc <- n`. -/
def State.putTimaAcc (n : Nat) (s : State) : State :=
  { s with timaAcc := n }

/-- `btn <- bs`. -/
def State.putButtons (bs : Buttons) (s : State) : State :=
  { s with btn := bs }

/-- The requests still to run are `ws`. -/
def State.putRequests (ws : List TxWord) (s : State) : State :=
  { s with requests := ws }

/-- RD of a cell: the stored byte is returned and nothing changes (20_memory.md R45). -/
def readCell (r : Reg) (s : State) : Result :=
  .next (s.respond (some (cellOf s.rf r)))

/-- WR of a cell: all 8 bits are replaced and nothing else changes (20_memory.md R46). -/
def writeCell (r : Reg) (v : Byte) (s : State) : Result :=
  .next ((s.putRegs (setCell s.rf r v)).respond none)

/-- `while acc >= period: acc <- acc - period; turn` (40_timer.md R80), on the pair of accumulator and register file.
`fuel` bounds the turns: a turn takes a positive amount from `acc` (R89), so `acc` itself is fuel enough. -/
def drainLoop (turn : RegFile → RegFile) (period : Nat) : Nat → Nat → RegFile → Nat × RegFile
  | 0, acc, rf => (acc, rf)
  | fuel + 1, acc, rf => if period ≤ acc then drainLoop turn period fuel (acc - period) (turn rf) else (acc, rf)

/-- The whole loop from accumulator value `acc`. -/
def drain (turn : RegFile → RegFile) (period acc : Nat) (rf : RegFile) : Nat × RegFile :=
  drainLoop turn period acc acc rf

/-- The oldest request and the state without it; none when no agent has issued one (log 1, 2). -/
def State.fetch (s : State) : Option (TxWord × State) :=
  match s.requests with
  | [] => none
  | w :: ws => some (w, s.putRequests ws)

end Sys2Proof.Machine
end

