-- ==== Sys2Proof/Machine/Bus.lean ====
section
/-! DEFINITION. The register-file bus operations (42_regfile_bus.md). RD.JOYP is in Machine/Joypad.lean. -/

namespace Sys2Proof.Machine

/-- `RD.DIV` (R120). -/
def execRdDiv (s : State) : Result := readCell .DIV s

/-- `RD.TIMA` (R121). -/
def execRdTima (s : State) : Result := readCell .TIMA s

/-- `RD.TMA` (R122). -/
def execRdTma (s : State) : Result := readCell .TMA s

/-- `RD.TAC` (R123): no bit is forced (log 18). -/
def execRdTac (s : State) : Result := readCell .TAC s

/-- `RD.IF` (R124): no bit is forced or cleared (log 18). -/
def execRdIf (s : State) : Result := readCell .IF s

/-- `WR.TMA v` (R125). -/
def execWrTma (v : Byte) (s : State) : Result := writeCell .TMA v s

/-- `WR.TAC v` (R126): no accumulator is changed and no tick happens. -/
def execWrTac (v : Byte) (s : State) : Result := writeCell .TAC v s

/-- `WR.IF v` (R127): all 8 bits are replaced (log 18). -/
def execWrIf (v : Byte) (s : State) : Result := writeCell .IF v s

/-- `WR.JOYP v` (R128): all 8 bits are stored (log 18). -/
def execWrJoyp (v : Byte) (s : State) : Result := writeCell .JOYP v s

/-- `WR.DIV v` is refused (R129; log 8): the spec decides that the word decodes and has no meaning. -/
def execWrDiv (_v : Byte) (_s : State) : Result := .refused .writeOfDivider

/-- `WR.TIMA v` is refused (R130; log 8). -/
def execWrTima (_v : Byte) (_s : State) : Result := .refused .writeOfTimerCounter

end Sys2Proof.Machine
end

