-- ==== Sys2Proof/Machine/Joypad.lean ====
section
/-! DEFINITION. The Joypad: PRESS, RELEASE and the multiplexed read (41_joypad.md). -/

namespace Sys2Proof.Machine

/-- `PRESS x` (R100): the joypad interrupt is raised when and only when the button was released; the select bits play no
part (R107). -/
def execPress (x : Button) (s : State) : Result :=
  let rf := if flagOf s.btn x then s.rf else setIrq (joypadBit s.platform) s.rf
  .next (((s.putRegs rf).putButtons (setFlag s.btn x true)).respond none)

/-- `RELEASE x` (R101): the flag and nothing else. -/
def execRelease (x : Button) (s : State) : Result :=
  .next ((s.putButtons (setFlag s.btn x false)).respond none)

/-- Four flags as a nibble, the first in bit 0. -/
def nibbleOf (b0 b1 b2 b3 : Bool) : Nibble :=
  (if b0 then 1 else 0) ||| (if b1 then 2 else 0) ||| (if b2 then 4 else 0) ||| (if b3 then 8 else 0)

/-- `act` of R102. -/
def actionNibble (bs : Buttons) : Nibble := nibbleOf bs.a bs.b bs.select bs.start

/-- `dir` of R102. -/
def directionNibble (bs : Buttons) : Nibble := nibbleOf bs.right bs.left bs.up bs.down

/-- `low` of R102: from `xxxx1111`, each selected group clears the bits of its pressed buttons. -/
def joypLow (sel : Byte) (bs : Buttons) : Nibble :=
  let low := 0b1111#4
  let low := if actionSelected sel then low &&& ~~~(actionNibble bs) else low
  if directionSelected sel then low &&& ~~~(directionNibble bs) else low

/-- The byte RD.JOYP returns, `JOYP_HI(sel) ++ low` (R102). -/
def joypRead (s : State) : Byte :=
  joypHiAt s.platform.joypHi s.rf.JOYP ++ joypLow s.rf.JOYP s.btn

/-- `RD.JOYP` (R102): the byte is computed at the read and stored in no cell (90_conflicts.md C3). -/
def execRdJoyp (s : State) : Result :=
  .next (s.respond (some (joypRead s)))

end Sys2Proof.Machine
end

