-- ==== Sys2Proof/Machine/System.lean ====
section
/-! DEFINITION. RESET, the only system operation (42_regfile_bus.md R134). -/

namespace Sys2Proof.Machine

/-- `RESET` (70_reset_and_hazards.md R170): `RF <- RF_RESET`, both accumulators 0, every button released. The requests
the agents have issued are not state of the block and stay (log 17). -/
def execReset (s : State) : Result :=
  .next (((((s.putRegs s.platform.rfReset).putDivAcc 0).putTimaAcc 0).putButtons Buttons.released).respond none)

end Sys2Proof.Machine
end

