-- ==== Sys2Proof/Machine/Timer.lean ====
section
/-! DEFINITION. The Timer: STEP and its parts (40_timer.md). -/

namespace Sys2Proof.Machine

/-- One wrap of the divider accumulator: `RF[DIV] <- (RF[DIV] + 1) mod 256`, no interrupt (R81). -/
def wrap (rf : RegFile) : RegFile :=
  { rf with DIV := rf.DIV + 1 }

/-- TICK (R85): at 0xFF reload from `TMA` and raise the timer interrupt, else count up. -/
def tick (p : Platform) (rf : RegFile) : RegFile :=
  if rf.TIMA = 0xFF then setIrq (timerBit p) { rf with TIMA := rf.TMA } else { rf with TIMA := rf.TIMA + 1 }

/-- The divider half of STEP (R81). -/
def dividerHalf (n : Nat) (s : State) : State :=
  let r := drain wrap divPeriod (s.divAcc + n) s.rf
  (s.putRegs r.2).putDivAcc r.1

/-- The timer half of STEP (R82 to R85): the accumulator is fed whether or not the timer is enabled (R83; log 11) and
drained only when it is. -/
def timerHalf (n : Nat) (s : State) : State :=
  let tc := timerControl s.platform s.rf.TAC
  if tc.enabled then
    let r := drain (tick s.platform) (timaPeriod tc.clockSelect) (s.timaAcc + n) s.rf
    (s.putRegs r.2).putTimaAcc r.1
  else s.putTimaAcc (s.timaAcc + n)

/-- `STEP n` (R80): the divider half, then the timer half. `STEP 0` is no special case (R90; log 12). -/
def execStep (n : Nat) (s : State) : Result :=
  .next ((timerHalf n (dividerHalf n s)).respond none)

end Sys2Proof.Machine
end

