-- ==== Sys2Proof/Machine/Dispatch.lean ====
section
/-! DEFINITION. One arm for each operation. -/

namespace Sys2Proof.Machine

def exec (i : Instr) (s : State) : Host.Outcome State Fault Refusal :=
  match i with
  | .step n => Sys2Proof.Machine.execStep n s
  | .press x => Sys2Proof.Machine.execPress x s
  | .release x => Sys2Proof.Machine.execRelease x s
  | .rdDiv => Sys2Proof.Machine.execRdDiv s
  | .rdTima => Sys2Proof.Machine.execRdTima s
  | .rdTma => Sys2Proof.Machine.execRdTma s
  | .rdTac => Sys2Proof.Machine.execRdTac s
  | .rdIf => Sys2Proof.Machine.execRdIf s
  | .rdJoyp => Sys2Proof.Machine.execRdJoyp s
  | .wrDiv v => Sys2Proof.Machine.execWrDiv v s
  | .wrTima v => Sys2Proof.Machine.execWrTima v s
  | .wrTma v => Sys2Proof.Machine.execWrTma v s
  | .wrTac v => Sys2Proof.Machine.execWrTac v s
  | .wrIf v => Sys2Proof.Machine.execWrIf v s
  | .wrJoyp v => Sys2Proof.Machine.execWrJoyp v s
  | .reset => Sys2Proof.Machine.execReset s

end Sys2Proof.Machine
end

