-- ==== Sys2Proof/Machine/Step.lean ====
section
/-! DEFINITION. One step of the machine: the oldest request runs (00_scope.md R8; log 1). -/

namespace Sys2Proof.Machine

/-- One step. With no request pending nothing happens (00_scope.md R7: the block "has no step of its own"; log 2). An
illegal word is refused at the decode boundary (30_encoding.md R66; log 9). -/
def step (s : State) : Host.Outcome State Fault Refusal :=
  match s.fetch with
  | none => .next s
  | some (w, s') =>
    match decode w with
    | .ok i => exec i s'
    | .error e => .refused (.illegalWord e)

/-- `s` with a word issued ahead of every other request, so that the next step runs it (log 1). -/
def State.withFetchWord (s : State) (nbits w : Nat) : State :=
  s.putRequests (tableWord nbits w :: s.requests)

end Sys2Proof.Machine
end

