-- ==== Sys2Proof/Machine/Pseudo.lean ====
section
/-! DEFINITION. The pseudo-operations of 30_encoding.md R69, "each a fixed expansion into one real operation", and the
operation a platform bus access stands for. Spellings only: no row of the opcode table is one of them. -/

namespace Sys2Proof.Machine

/-- The seven pseudo-operations (R69). -/
inductive Pseudo where
  | timerOn (cs : BitVec 2)
  | timerOff (cs : BitVec 2)
  | selectAct
  | selectDir
  | selectBoth
  | selectNone
  | irqClearAll
deriving DecidableEq, Repr

/-- `cs << TAC_CS_LO`. -/
def clockSelectByte (p : Platform) (cs : BitVec 2) : Byte :=
  cs.setWidth 8 <<< p.tacCsLo.val

/-- The real operation a pseudo-operation expands into (R69, middle column). -/
def Pseudo.expand (p : Platform) : Pseudo → Instr
  | .timerOn cs => .wrTac ((1#8 <<< p.tacEnBit.val) ||| clockSelectByte p cs)
  | .timerOff cs => .wrTac (clockSelectByte p cs)
  | .selectAct => .wrJoyp 0x10
  | .selectDir => .wrJoyp 0x20
  | .selectBoth => .wrJoyp 0x00
  | .selectNone => .wrJoyp 0x30
  | .irqClearAll => .wrIf 0x00

/-- `get(address)` as an operation of the block (30_encoding.md R65; 20_memory.md R41, R54). -/
def getAt (m : AddrMap) (addr : Nat) : Option Instr :=
  (cellAt m addr).map Instr.rd

/-- `set(address, value)` as an operation of the block (30_encoding.md R65; 20_memory.md R41, R54). -/
def setAt (m : AddrMap) (addr : Nat) (v : Byte) : Option Instr :=
  (cellAt m addr).map fun r => Instr.wr r v

end Sys2Proof.Machine
end

