-- ==== Sys2Proof/Safety.lean ====
section
/-! DEFINITION. What a safe run is, and the terms the statements use.

A safe run is one that never leaves the admitted subset (60_exceptions.md R141): every word it takes decodes, and to an
operation other than WR.DIV and WR.TIMA. -/

namespace Sys2Proof.Machine

/-- Every operation but the two the spec refuses (42_regfile_bus.md R129, R130). -/
def Admitted : Instr → Prop
  | .step _ => True
  | .press _ => True
  | .release _ => True
  | .rdDiv => True
  | .rdTima => True
  | .rdTma => True
  | .rdTac => True
  | .rdIf => True
  | .rdJoyp => True
  | .wrDiv _ => False
  | .wrTima _ => False
  | .wrTma _ => True
  | .wrTac _ => True
  | .wrIf _ => True
  | .wrJoyp _ => True
  | .reset => True

/-- A word an agent of the contract can issue. -/
def AdmittedWord (w : TxWord) : Prop :=
  ∃ i, decode w = .ok i ∧ Admitted i

/-- The well-formed states of 10_state.md R30, on a platform that meets the constraints of 00_scope.md R6. -/
structure State.Inv (s : State) : Prop where
  divAcc_lt : s.divAcc < 256
  legal : s.platform.Legal

/-- `EN` of the stored `TAC` (10_state.md R16). -/
abbrev State.enabled (s : State) : Prop :=
  (timerControl s.platform s.rf.TAC).enabled = true

/-- The period the stored `TAC` selects (10_state.md R16, R17). -/
def State.period (s : State) : Nat :=
  timaPeriod (timerControl s.platform s.rf.TAC).clockSelect

/-- Operations issued one after another (20_memory.md R48), stopping at the first that does not end in a next state. -/
def execAll : List Instr → State → Host.Outcome State Fault Refusal
  | [], s => .next s
  | i :: is, s =>
    match exec i s with
    | .next t => execAll is t
    | .fault f => .fault f
    | .refused r => .refused r

/-- The states reachable from creation on a legal platform (10_state.md R29, 70_reset_and_hazards.md R171), the agents
issuing any words at any time (00_scope.md R8, 20_memory.md R49). -/
inductive Reachable : State → Prop where
  | created (p : Platform) (legal : p.Legal) : Reachable (State.created p)
  | issued (s : State) (w : TxWord) (h : Reachable s) : Reachable (s.putRequests (s.requests ++ [w]))
  | stepped (s t : State) (h : Reachable s) (hs : step s = .next t) : Reachable t

end Sys2Proof.Machine
end

