-- ==== Sys2Proof/Certificates/Slice0/Obligations.lean ====
section
/-! DEFINITION. The statements for the provers, from the numbered rules of spec/.

Every statement over states is over every `platform` in them, that is over every choice of the OPEN parameters of
00_scope.md R6. `EN` and the period are `State.enabled` and `State.period` of Sys2Proof/Safety.lean, or are spelled out
bit by bit. -/

open Sys2Proof Sys2Proof.Machine

/-! Reset, the step, invariants. -/

/-- 10_state.md R29, R30: a newly created block is well-formed, on every legal platform, and so is the reset state. That
the accumulators start at 0 is the spec's decision D11 (log 7); the reset platform is the model's choice (log 4). -/
def Obligations.CreatedBlockIsWellFormed : Prop :=
  (∀ p : Platform, p.Legal → (State.created p).Inv) ∧ State.reset.Inv

/-- 70_reset_and_hazards.md R170: what RESET leaves, from any state and for every `RF_RESET`. The values are the spec's
decisions D9, D11, D12, D22 (log 6, 7); that the requests stay is the model's choice (log 17). -/
def Obligations.ResetRestoresCreationState : Prop :=
  decode 0xF0000000#32 = .ok .reset ∧
    ∀ s : State, ∃ t, exec .reset s = .next t ∧
      (∀ r, cellOf t.rf r = cellOf s.platform.rfReset r) ∧ t.divAcc = 0 ∧ t.timaAcc = 0 ∧
      (∀ x, flagOf t.btn x = false) ∧ t.platform = s.platform ∧ t.requests = s.requests ∧ t.response = none

/-- 70_reset_and_hazards.md R170: after RESET the next PRESS of any button, held across the reset or not, is a
released-to-pressed transition and raises the joypad interrupt (decisions D12, D22; log 7). -/
def Obligations.PressAfterResetInterrupts : Prop :=
  ∀ (s : State) (x : Button), ∃ t, execAll [.reset, .press x] s = .next t ∧
    t.irqJoypad = true ∧ flagOf t.btn x = true ∧ ∀ y, y ≠ x → flagOf t.btn y = false

/-- 10_state.md R30 as an invariant of every step: well-formed states step to well-formed states only. -/
def Obligations.StepKeepsWellFormed : Prop :=
  ∀ s t : State, s.Inv → step s = .next t → t.Inv

/-- 10_state.md R22: exactly what holds of the accumulators. (a) `div_acc < 256` in every reachable state. (b)
`tima_acc` is below the period immediately after a STEP that ran with `EN = 1`. (c) It need not be after a STEP that ran
with `EN = 0`, nor after a WR.TAC that selects a smaller period. Clause (a) rests on the accumulators' start at 0, the
spec's decision D11 (log 7); the first half of (c) on the accumulator being fed while disabled, decision D23 (log 11). -/
def Obligations.AccumulatorBounds : Prop :=
  (∀ s, Reachable s → s.divAcc < 256) ∧
    (∀ (s : State) (n : Nat), s.enabled → ∃ t, exec (.step n) s = .next t ∧ t.timaAcc < s.period) ∧
    (∃ s n t, Reachable s ∧ ¬s.enabled ∧ exec (.step n) s = .next t ∧ t.period ≤ t.timaAcc) ∧
    (∃ s v t, Reachable s ∧ s.enabled ∧ s.timaAcc < s.period ∧ exec (.wrTac v) s = .next t ∧ t.enabled ∧
      t.period < s.period ∧ t.period ≤ t.timaAcc)

/-- 10_state.md R28: no operation changes the parameters (log 4), and none touches the requests still to run (log 1). -/
def Obligations.OperationsKeepPlatformAndRequests : Prop :=
  ∀ (i : Instr) (s t : State), exec i s = .next t → t.platform = s.platform ∧ t.requests = s.requests

/-- How a step runs an operation (the model's form of 00_scope.md R8; log 1, 2, 9): the oldest request is taken and, if
it decodes, run; an illegal word is refused with its reason (30_encoding.md R66); with no request nothing happens. -/
def Obligations.StepRunsOldestRequest : Prop :=
  (∀ (s : State) (w : TxWord) (ws : List TxWord) (i : Instr), s.requests = w :: ws → decode w = .ok i →
      step s = exec i { s with requests := ws }) ∧
    (∀ (s : State) (w : TxWord) (ws : List TxWord) (e : DecodeError), s.requests = w :: ws → decode w = .error e →
      step s = .refused (.illegalWord e)) ∧
    (∀ s : State, s.requests = [] → step s = .next s)

/-- 60_exceptions.md R158, R140, with the model's queue (log 1, 2): a block whose agents issue only admitted operations
never stops, for any number of steps, and takes the requests in order. -/
def Obligations.AdmittedRequestsNeverStop : Prop :=
  ∀ (k : Nat) (s : State), (∀ w ∈ s.requests, AdmittedWord w) →
    ∃ t, Host.Core.run Sys2Proof.core k s = .next t ∧ t.requests = s.requests.drop k

/-- 60_exceptions.md R140, R141: no operation of the block raises an exception, fault or error; every operation but the
two the spec refuses (decisions D13, D14; log 8) completes in every state. -/
def Obligations.OperationsCompleteWithoutFault : Prop :=
  ∀ (i : Instr) (s : State), (∀ f, exec i s ≠ .fault f) ∧ (Admitted i ↔ ∃ t, exec i s = .next t)

/-- 42_regfile_bus.md R129: `WR.DIV v` decodes and is refused in every state (the spec's decision D13; log 8). -/
def Obligations.WriteOfDividerRefused : Prop :=
  ∀ (v : Byte) (s : State), decode (0x50000000#32 ||| v.setWidth 32) = .ok (.wrDiv v) ∧
    exec (.wrDiv v) s = .refused .writeOfDivider

/-- 42_regfile_bus.md R130: `WR.TIMA v` decodes and is refused in every state (the spec's decision D14; log 8). -/
def Obligations.WriteOfTimerCounterRefused : Prop :=
  ∀ (v : Byte) (s : State), decode (0x50000100#32 ||| v.setWidth 32) = .ok (.wrTima v) ∧
    exec (.wrTima v) s = .refused .writeOfTimerCounter

/-! The Timer. -/

/-- 40_timer.md R81, closed form (the spec's derivation): what STEP does to the divider, whatever `TAC` holds. -/
def Obligations.DividerCountsWholePeriods : Prop :=
  ∀ (s : State) (n : Nat), ∃ t, exec (.step n) s = .next t ∧ t.divAcc = (s.divAcc + n) % 256 ∧
    t.rf.DIV.toNat = (s.rf.DIV.toNat + (s.divAcc + n) / 256) % 256

/-- 40_timer.md R83: a STEP with the enable bit clear feeds `tima_acc` and does nothing else in the timer half (the
source's current behaviour, D23; log 11). -/
def Obligations.DisabledStepOnlyFeedsAccumulator : Prop :=
  ∀ (s : State) (n : Nat), s.rf.TAC.getLsbD s.platform.tacEnBit.val = false →
    ∃ t, exec (.step n) s = .next t ∧ t.timaAcc = s.timaAcc + n ∧ t.rf.TIMA = s.rf.TIMA ∧ t.rf.IF = s.rf.IF

/-- 10_state.md R17: the clock-select field, read from the stored byte, chooses the period from the table, index 0 =
1024. An enabled STEP takes whole such periods out of `tima_acc`, one tick each (the ticks are counted by `TIMA`, up to
its overflow): that count is the spec's derivation, 40_timer.md R84. -/
def Obligations.ClockSelectChoosesPeriod : Prop :=
  ∀ (s : State) (n : Nat), s.rf.TAC.getLsbD s.platform.tacEnBit.val = true →
    ∃ t P, ([1024, 16, 64, 256] : List Nat)[s.rf.TAC.toNat / 2 ^ s.platform.tacCsLo.val % 4]? = some P ∧ 0 < P ∧
      exec (.step n) s = .next t ∧ t.timaAcc = (s.timaAcc + n) % P ∧
      (s.rf.TIMA.toNat + (s.timaAcc + n) / P < 256 → t.rf.TIMA.toNat = s.rf.TIMA.toNat + (s.timaAcc + n) / P)

/-- 40_timer.md R85: one TICK. Below 0xFF it counts up and leaves `IF` alone; at 0xFF it reloads from `TMA` and sets the
timer bit in the same tick, every other bit of `IF` kept, a set bit staying set. STEPs of one tick each make up every
STEP (`Obligations.StepsAddUp`). -/
def Obligations.TickCountsOrReloads : Prop :=
  ∀ (s : State) (n : Nat), s.enabled → (s.timaAcc + n) / s.period = 1 →
    ∃ t, exec (.step n) s = .next t ∧ t.timaAcc + s.period = s.timaAcc + n ∧ t.rf.TMA = s.rf.TMA ∧
      (s.rf.TIMA ≠ 0xFF → t.rf.TIMA.toNat = s.rf.TIMA.toNat + 1 ∧ t.rf.IF = s.rf.IF) ∧
      (s.rf.TIMA = 0xFF → t.rf.TIMA = s.rf.TMA ∧ t.rf.IF.getLsbD s.platform.ifTimerBit.val = true ∧
        (∀ j, j ≠ s.platform.ifTimerBit.val → t.rf.IF.getLsbD j = s.rf.IF.getLsbD j) ∧
        (s.rf.IF.getLsbD s.platform.ifTimerBit.val = true → t.rf.IF = s.rf.IF))

/-- 40_timer.md R84, R87 (the spec's derivation): the closed form of the timer half equals the loop of ticks. -/
def Obligations.TimerClosedForm : Prop :=
  ∀ (s : State) (n k d : Nat), s.enabled → k = (s.timaAcc + n) / s.period → d = 256 - s.rf.TIMA.toNat →
    ∃ t, exec (.step n) s = .next t ∧ t.timaAcc = (s.timaAcc + n) % s.period ∧
      if k < d then t.rf.TIMA.toNat = s.rf.TIMA.toNat + k ∧ t.rf.IF = s.rf.IF
      else t.rf.TIMA.toNat = s.rf.TMA.toNat + (k - d) % (256 - s.rf.TMA.toNat) ∧
        t.rf.IF = s.rf.IF ||| (1#8 <<< s.platform.ifTimerBit.val)

/-- 40_timer.md R88 (the spec's derivation): STEPs in a row leave the state one STEP of their sum leaves. Nothing
between them changes `EN`, `CS`, `TMA` or `IF`; the law holds with the timer disabled too, where it rests on decision
D23 (log 11). -/
def Obligations.StepsAddUp : Prop :=
  ∀ (s : State) (n : Nat) (ns : List Nat), execAll ((n :: ns).map .step) s = exec (.step (n + ns.sum)) s

/-- 40_timer.md R80, the frame of STEP: what it never touches. -/
def Obligations.StepFrame : Prop :=
  ∀ (s : State) (n : Nat), ∃ t, exec (.step n) s = .next t ∧
    t.rf.TMA = s.rf.TMA ∧ t.rf.TAC = s.rf.TAC ∧ t.rf.JOYP = s.rf.JOYP ∧ t.btn = s.btn ∧
    t.platform = s.platform ∧ t.requests = s.requests ∧ t.response = none ∧
    (∀ j, j ≠ s.platform.ifTimerBit.val → t.rf.IF.getLsbD j = s.rf.IF.getLsbD j) ∧
    (s.irqTimer = true → t.irqTimer = true) ∧
    (¬s.enabled → t.rf.TIMA = s.rf.TIMA ∧ t.rf.IF = s.rf.IF)

/-- 40_timer.md R90: `STEP 0` changes nothing of the block in a well-formed state whose timer accumulator is not stale,
and drains a stale one (the spec's decision D24; log 12). -/
def Obligations.StepZeroDrainsOnlyStaleAccumulator : Prop :=
  ∀ s : State, s.divAcc < 256 →
    ((s.enabled → s.timaAcc < s.period) → exec (.step 0) s = .next { s with response := none }) ∧
    (s.enabled → s.period ≤ s.timaAcc → ∃ t, exec (.step 0) s = .next t ∧ t.timaAcc < s.period ∧
      t.rf.DIV = s.rf.DIV ∧ t.divAcc = s.divAcc ∧
      (s.rf.TIMA = 0xFF → s.timaAcc < 2 * s.period → t.rf.TIMA = s.rf.TMA ∧ t.irqTimer = true))

/-- 40_timer.md R86: the two halves of STEP are independent: what each one's results depend on, that their order cannot
be observed, and what each one writes. -/
def Obligations.StepHalvesAreIndependent : Prop :=
  (∀ (s s' t t' : State) (n : Nat), s.rf.DIV = s'.rf.DIV → s.divAcc = s'.divAcc →
      exec (.step n) s = .next t → exec (.step n) s' = .next t' → t.rf.DIV = t'.rf.DIV ∧ t.divAcc = t'.divAcc) ∧
    (∀ (s s' t t' : State) (n : Nat), s.platform = s'.platform → s.rf.TAC = s'.rf.TAC → s.rf.TMA = s'.rf.TMA →
      s.rf.TIMA = s'.rf.TIMA → s.rf.IF = s'.rf.IF → s.timaAcc = s'.timaAcc →
      exec (.step n) s = .next t → exec (.step n) s' = .next t' →
      t.rf.TIMA = t'.rf.TIMA ∧ t.rf.IF = t'.rf.IF ∧ t.timaAcc = t'.timaAcc) ∧
    (∀ (s : State) (n : Nat), timerHalf n (dividerHalf n s) = dividerHalf n (timerHalf n s) ∧
      (∃ d a, dividerHalf n s = { s with rf := { s.rf with DIV := d }, divAcc := a }) ∧
      (∃ c f a, timerHalf n s = { s with rf := { s.rf with TIMA := c, IF := f }, timaAcc := a }))

/-- 10_state.md R16: the five bits of `TAC` outside `EN` and `CS` have no effect on STEP (decision D15; log 18). -/
def Obligations.IgnoredTacBitsHaveNoEffect : Prop :=
  ∀ (s : State) (v : Byte) (n : Nat),
    v.getLsbD s.platform.tacEnBit.val = s.rf.TAC.getLsbD s.platform.tacEnBit.val →
    v.getLsbD s.platform.tacCsLo.val = s.rf.TAC.getLsbD s.platform.tacCsLo.val →
    v.getLsbD (s.platform.tacCsLo.val + 1) = s.rf.TAC.getLsbD (s.platform.tacCsLo.val + 1) →
    ∃ t, exec (.step n) s = .next t ∧
      exec (.step n) { s with rf := { s.rf with TAC := v } } = .next { t with rf := { t.rf with TAC := v } }

/-- 70_reset_and_hazards.md R173: cycles counted while the timer was disabled are applied as ticks, all at once, by the
first STEP after WR.TAC enables it (decision D23; log 11). -/
def Obligations.BacklogAppliedOnEnable : Prop :=
  ∀ (s : State) (c n k d P : Nat) (v : Byte), ¬s.enabled → v.getLsbD s.platform.tacEnBit.val = true →
    P = timaPeriod (timerControl s.platform v).clockSelect → k = (s.timaAcc + c + n) / P →
    d = 256 - s.rf.TIMA.toNat →
    ∃ t, execAll [.step c, .wrTac v, .step n] s = .next t ∧ t.timaAcc = (s.timaAcc + c + n) % P ∧
      if k < d then t.rf.TIMA.toNat = s.rf.TIMA.toNat + k ∧ t.rf.IF = s.rf.IF
      else t.rf.TIMA.toNat = s.rf.TMA.toNat + (k - d) % (256 - s.rf.TMA.toNat) ∧ t.irqTimer = true

/-- 70_reset_and_hazards.md R179, 95_test_vectors.md S2: with `TMA = 0xFF` every tick from 0xFF is an overflow; with
`TMA = 0x00` the counter is a plain modulo-256 counter that flags each wrap. -/
def Obligations.ModuloExtremes : Prop :=
  ∀ (s : State) (n k : Nat), s.enabled → k = (s.timaAcc + n) / s.period →
    ∃ t, exec (.step n) s = .next t ∧
      (s.rf.TMA = 0xFF → s.rf.TIMA = 0xFF → 0 < k → t.rf.TIMA = 0xFF ∧ t.irqTimer = true) ∧
      (s.rf.TMA = 0x00 → t.rf.TIMA.toNat = (s.rf.TIMA.toNat + k) % 256 ∧
        t.irqTimer = (s.irqTimer || decide (256 ≤ s.rf.TIMA.toNat + k)))

/-! Interrupt flags and ownership, over all operations. -/

/-- 20_memory.md R47, 95_test_vectors.md S4: an interrupt raised while its bit is set leaves the whole byte unchanged,
however many overflows one STEP holds (70_reset_and_hazards.md R175). -/
def Obligations.InterruptSettingIsIdempotent : Prop :=
  (∀ (s : State) (n : Nat), s.irqTimer = true → ∃ t, exec (.step n) s = .next t ∧ t.rf.IF = s.rf.IF) ∧
    (∀ (s : State) (x : Button), s.irqJoypad = true → ∃ t, exec (.press x) s = .next t ∧ t.rf.IF = s.rf.IF)

/-- 60_exceptions.md R143, R144, R145: the timer bit rises only in a STEP that overflows with the timer enabled, the
joypad bit only in a PRESS of a released button; else a WR.IF or a RESET put it there. -/
def Obligations.InterruptsRaisedOnlyByTheirSources : Prop :=
  ∀ (i : Instr) (s t : State), s.platform.Legal → exec i s = .next t → i ≠ .reset → (∀ v, i ≠ .wrIf v) →
    (s.irqTimer = false → t.irqTimer = true →
      ∃ n, i = .step n ∧ s.enabled ∧ 256 ≤ s.rf.TIMA.toNat + (s.timaAcc + n) / s.period) ∧
    (s.irqJoypad = false → t.irqJoypad = true → ∃ x, i = .press x ∧ flagOf s.btn x = false)

/-- 10_state.md R18, R26: no operation but WR.IF and RESET clears any bit of `IF`, and none but those two changes a bit
that is not one of the block's two. -/
def Obligations.FlagBitsClearedOnlyByWriteOrReset : Prop :=
  ∀ (i : Instr) (s t : State), exec i s = .next t → i ≠ .reset → (∀ v, i ≠ .wrIf v) →
    (∀ j, s.rf.IF.getLsbD j = true → t.rf.IF.getLsbD j = true) ∧
    (∀ j, j ≠ s.platform.ifTimerBit.val → j ≠ s.platform.ifJoypadBit.val → t.rf.IF.getLsbD j = s.rf.IF.getLsbD j)

/-- 10_state.md R23, 70_reset_and_hazards.md R176: RESET apart, each piece of state is changed only by its owner's
operations. -/
def Obligations.StateChangedOnlyByOwner : Prop :=
  ∀ (i : Instr) (s t : State), exec i s = .next t → i ≠ .reset →
    ((∀ n, i ≠ .step n) → t.rf.DIV = s.rf.DIV ∧ t.rf.TIMA = s.rf.TIMA ∧ t.divAcc = s.divAcc ∧ t.timaAcc = s.timaAcc) ∧
    ((∀ v, i ≠ .wrTma v) → t.rf.TMA = s.rf.TMA) ∧
    ((∀ v, i ≠ .wrTac v) → t.rf.TAC = s.rf.TAC) ∧
    ((∀ v, i ≠ .wrJoyp v) → t.rf.JOYP = s.rf.JOYP) ∧
    ((∀ n, i ≠ .step n) → (∀ x, i ≠ .press x) → (∀ v, i ≠ .wrIf v) → t.rf.IF = s.rf.IF) ∧
    ((∀ x, i ≠ .press x) → (∀ x, i ≠ .release x) → t.btn = s.btn)

/-- 60_exceptions.md R149: an interrupt is precise at operation granularity: the very next RD.IF sees the bit. -/
def Obligations.RaisedInterruptSeenByNextRead : Prop :=
  (∀ (s : State) (x : Button), flagOf s.btn x = false →
      ∃ t v, execAll [.press x, .rdIf] s = .next t ∧ t.response = some v ∧
        v.getLsbD s.platform.ifJoypadBit.val = true) ∧
    (∀ (s : State) (n : Nat), s.enabled → 256 ≤ s.rf.TIMA.toNat + (s.timaAcc + n) / s.period →
      ∃ t v, execAll [.step n, .rdIf] s = .next t ∧ t.response = some v ∧
        v.getLsbD s.platform.ifTimerBit.val = true)

/-- 70_reset_and_hazards.md R177: a PRESS between a RD.IF and the WR.IF computed from it is lost. `m` is whatever mask
the dispatcher keeps. -/
def Obligations.ReadModifyWriteOfFlagLosesPress : Prop :=
  ∀ (s : State) (x : Button) (m : Byte), flagOf s.btn x = false → s.irqJoypad = false →
    ∃ r t, exec .rdIf s = .next { s with response := some r } ∧
      execAll [.rdIf, .press x, .wrIf (r &&& m), .press x] s = .next t ∧ t.irqJoypad = false ∧ flagOf t.btn x = true

/-! The Joypad. -/

/-- 41_joypad.md R100: `PRESS x`. -/
def Obligations.PressSetsFlagAndRaisesOnEdge : Prop :=
  ∀ x : Button, decode (0x20000000#32 ||| x.id.setWidth 32) = .ok (.press x) ∧
    ∀ s : State,
      (flagOf s.btn x = true → exec (.press x) s = .next { s with response := none }) ∧
      (flagOf s.btn x = false → ∃ t, exec (.press x) s = .next t ∧
        flagOf t.btn x = true ∧ (∀ y, y ≠ x → flagOf t.btn y = flagOf s.btn y) ∧
        t.rf.IF = s.rf.IF ||| (1#8 <<< s.platform.ifJoypadBit.val) ∧
        t.rf.IF.getLsbD s.platform.ifJoypadBit.val = true ∧
        (∀ j, j ≠ s.platform.ifJoypadBit.val → t.rf.IF.getLsbD j = s.rf.IF.getLsbD j) ∧
        (∀ r, r ≠ .IF → cellOf t.rf r = cellOf s.rf r) ∧ t.divAcc = s.divAcc ∧ t.timaAcc = s.timaAcc ∧
        t.platform = s.platform ∧ t.requests = s.requests ∧ t.response = none)

/-- 41_joypad.md R101: `RELEASE x`. -/
def Obligations.ReleaseClearsFlagOnly : Prop :=
  ∀ x : Button, decode (0x30000000#32 ||| x.id.setWidth 32) = .ok (.release x) ∧
    ∀ s : State, ∃ t, exec (.release x) s = .next t ∧
      flagOf t.btn x = false ∧ (∀ y, y ≠ x → flagOf t.btn y = flagOf s.btn y) ∧
      t.rf = s.rf ∧ t.divAcc = s.divAcc ∧ t.timaAcc = s.timaAcc ∧
      t.platform = s.platform ∧ t.requests = s.requests ∧ t.response = none ∧
      (flagOf s.btn x = false → t.btn = s.btn)

/-- 41_joypad.md R107: the joypad interrupt depends only on the flag of the button named, never on the select bits, and
no change of the select bits raises it. -/
def Obligations.PressIgnoresSelection : Prop :=
  ∀ (s : State) (x : Button) (v : Byte),
    (∃ t, exec (.press x) s = .next t ∧ (flagOf s.btn x = false → t.irqJoypad = true) ∧
      exec (.press x) { s with rf := { s.rf with JOYP := v } } = .next { t with rf := { t.rf with JOYP := v } }) ∧
    (∃ t, exec (.wrJoyp v) s = .next t ∧ t.rf.IF = s.rf.IF)

/-- 10_state.md R25: a flag reflects the latest PRESS or RELEASE of its button; with none it keeps the value it had (the
reset value, where the sequence starts from a created block). Other operations, and other buttons', do not matter. -/
def Obligations.LastPressOrReleaseWins : Prop :=
  ∀ (x : Button) (pre post : List Instr) (s t : State),
    Instr.press x ∉ post → Instr.release x ∉ post → Instr.reset ∉ post →
    (execAll (pre ++ .press x :: post) s = .next t → flagOf t.btn x = true) ∧
    (execAll (pre ++ .release x :: post) s = .next t → flagOf t.btn x = false) ∧
    (execAll post s = .next t → flagOf t.btn x = flagOf s.btn x)

/-- 41_joypad.md R110 (the spec's derivation): PRESS and RELEASE of different buttons commute; PRESS and RELEASE of one
button do not. -/
def Obligations.DifferentButtonsCommute : Prop :=
  (∀ (x y : Button) (s : State), x ≠ y → ∀ i ∈ [Instr.press x, .release x], ∀ j ∈ [Instr.press y, .release y],
      execAll [i, j] s = execAll [j, i] s) ∧
    (∀ (x : Button) (s : State), execAll [.press x, .release x] s ≠ execAll [.release x, .press x] s)

/-- 70_reset_and_hazards.md R178: a press and release between two reads leaves the joypad bit and no other trace. -/
def Obligations.PressAndReleaseLeaveOnlyInterrupt : Prop :=
  ∀ (x : Button) (s : State), flagOf s.btn x = false →
    execAll [.press x, .release x] s =
      .next { s with rf := { s.rf with IF := s.rf.IF ||| (1#8 <<< s.platform.ifJoypadBit.val) }, response := none }

/-- 41_joypad.md R102, R106: the byte RD.JOYP returns, bit by bit: `low[i] = 0` exactly when (`sel[5] = 0` and the action
button of position `i` is pressed) or (`sel[4] = 0` and the direction button is); above it `JOYP_HI` of the stored byte
(for every table, log 5). Nothing changes. -/
def Obligations.JoypadReadIsMultiplexed : Prop :=
  decode 0x40000500#32 = .ok .rdJoyp ∧
    ∀ s : State, ∃ v : Byte, exec .rdJoyp s = .next { s with response := some v } ∧
      v.extractLsb' 4 4 = joypHiAt s.platform.joypHi s.rf.JOYP ∧
      (v.getLsbD 0 = false ↔ (s.rf.JOYP.getLsbD 5 = false ∧ s.btn.a = true) ∨
        (s.rf.JOYP.getLsbD 4 = false ∧ s.btn.right = true)) ∧
      (v.getLsbD 1 = false ↔ (s.rf.JOYP.getLsbD 5 = false ∧ s.btn.b = true) ∨
        (s.rf.JOYP.getLsbD 4 = false ∧ s.btn.left = true)) ∧
      (v.getLsbD 2 = false ↔ (s.rf.JOYP.getLsbD 5 = false ∧ s.btn.select = true) ∨
        (s.rf.JOYP.getLsbD 4 = false ∧ s.btn.up = true)) ∧
      (v.getLsbD 3 = false ↔ (s.rf.JOYP.getLsbD 5 = false ∧ s.btn.start = true) ∨
        (s.rf.JOYP.getLsbD 4 = false ∧ s.btn.down = true))

/-- 41_joypad.md R103, R104: with neither group selected the low nibble is 0b1111 whatever the flags hold; with both it
is the two groups' results anded, so that exchanging the groups' flags cannot be told from it. -/
def Obligations.SelectionOfNoneAndBoth : Prop :=
  ∀ s : State, ∃ v : Byte, exec .rdJoyp s = .next { s with response := some v } ∧
    (s.rf.JOYP.getLsbD 5 = true → s.rf.JOYP.getLsbD 4 = true → v.extractLsb' 0 4 = 0b1111#4) ∧
    (s.rf.JOYP.getLsbD 5 = false → s.rf.JOYP.getLsbD 4 = false →
      v.getLsbD 0 = !(s.btn.a || s.btn.right) ∧ v.getLsbD 1 = !(s.btn.b || s.btn.left) ∧
      v.getLsbD 2 = !(s.btn.select || s.btn.up) ∧ v.getLsbD 3 = !(s.btn.start || s.btn.down) ∧
      ∀ bs : Buttons, bs = { a := s.btn.right, b := s.btn.left, select := s.btn.up, start := s.btn.down,
                             right := s.btn.a, left := s.btn.b, up := s.btn.select, down := s.btn.start } →
        exec .rdJoyp { s with btn := bs } = .next { s with btn := bs, response := some v })

/-! The register-file bus. -/

/-- 42_regfile_bus.md R120: `RD.DIV`. The stored byte; nothing changes; only a STEP (or RESET) changes what it returns. -/
def Obligations.ReadOfDivider : Prop :=
  decode 0x40000000#32 = .ok .rdDiv ∧
    (∀ s : State, exec .rdDiv s = .next { s with response := some s.rf.DIV }) ∧
    (∀ (s t u : State) (is : List Instr), (∀ n, Instr.step n ∉ is) → Instr.reset ∉ is →
      execAll (.rdDiv :: is) s = .next t → exec .rdDiv t = .next u → u.response = some s.rf.DIV)

/-- 42_regfile_bus.md R121: `RD.TIMA`. The stored byte; nothing changes; after an overflow tick the value is the reloaded
`TMA`, never a transient 0x00. -/
def Obligations.ReadOfTimerCounter : Prop :=
  decode 0x40000100#32 = .ok .rdTima ∧
    (∀ s : State, exec .rdTima s = .next { s with response := some s.rf.TIMA }) ∧
    (∀ (s : State) (n : Nat), s.enabled → s.rf.TIMA = 0xFF → (s.timaAcc + n) / s.period = 1 →
      ∃ t, execAll [.step n, .rdTima] s = .next t ∧ t.response = some s.rf.TMA)

/-- 42_regfile_bus.md R122, R123, R124: `RD.TMA`, `RD.TAC`, `RD.IF`. The stored byte, no bit forced; nothing changes
(decisions D15, D16; log 18). -/
def Obligations.ReadsOfModuloControlAndFlag : Prop :=
  (decode 0x40000200#32 = .ok .rdTma ∧ decode 0x40000300#32 = .ok .rdTac ∧ decode 0x40000400#32 = .ok .rdIf) ∧
    ∀ s : State, exec .rdTma s = .next { s with response := some s.rf.TMA } ∧
      exec .rdTac s = .next { s with response := some s.rf.TAC } ∧
      exec .rdIf s = .next { s with response := some s.rf.IF }

/-- 20_memory.md R45: the six reads have no side effects on any state; two reads of one cell with no operation between
them return the same byte. (`response` is the byte returned, no state of the block; log 3.) -/
def Obligations.ReadsHaveNoSideEffects : Prop :=
  ∀ (r : Reg) (s : State), ∃ v : Byte, exec (Instr.rd r) s = .next { s with response := some v } ∧
    execAll [Instr.rd r, Instr.rd r] s = .next { s with response := some v } ∧
    (r ≠ .JOYP → v = cellOf s.rf r)

/-- 42_regfile_bus.md R125: `WR.TMA v`. The byte is stored, nothing else is touched, `TIMA` is not reloaded, and the new
value is used at the next overflow tick. -/
def Obligations.WriteOfModulo : Prop :=
  ∀ (v : Byte) (s : State), decode (0x50000200#32 ||| v.setWidth 32) = .ok (.wrTma v) ∧
    exec (.wrTma v) s = .next { s with rf := { s.rf with TMA := v }, response := none } ∧
    ∀ n, s.enabled → s.rf.TIMA = 0xFF → (s.timaAcc + n) / s.period = 1 →
      ∃ t, execAll [.wrTma v, .step n] s = .next t ∧ t.rf.TIMA = v

/-- 42_regfile_bus.md R126: `WR.TAC v`. The byte is stored and nothing else is touched: no accumulator, no tick, no
interrupt; the new `EN` and `CS` are read by the next STEP, so a kept accumulator counts toward the new period (the
remainder left is the spec's derivation, 40_timer.md R84) and a disabled timer does not tick (40_timer.md R83). -/
def Obligations.WriteOfControl : Prop :=
  ∀ (v : Byte) (s : State), decode (0x50000300#32 ||| v.setWidth 32) = .ok (.wrTac v) ∧
    exec (.wrTac v) s = .next { s with rf := { s.rf with TAC := v }, response := none } ∧
    ∀ n, ∃ t, execAll [.wrTac v, .step n] s = .next t ∧
      (v.getLsbD s.platform.tacEnBit.val = true →
        t.timaAcc = (s.timaAcc + n) % timaPeriod (timerControl s.platform v).clockSelect) ∧
      (v.getLsbD s.platform.tacEnBit.val = false → t.rf.TIMA = s.rf.TIMA ∧ t.rf.IF = s.rf.IF)

/-- 42_regfile_bus.md R127, R128: `WR.IF v` and `WR.JOYP v`. All 8 bits are stored (decisions D26, D20; log 18), nothing
else is touched, and both interrupt outputs take the bits written to `IF`. -/
def Obligations.WritesOfFlagAndSelect : Prop :=
  ∀ (v : Byte) (s : State), decode (0x50000400#32 ||| v.setWidth 32) = .ok (.wrIf v) ∧
    decode (0x50000500#32 ||| v.setWidth 32) = .ok (.wrJoyp v) ∧
    exec (.wrJoyp v) s = .next { s with rf := { s.rf with JOYP := v }, response := none } ∧
    ∃ t, exec (.wrIf v) s = .next t ∧ t = { s with rf := { s.rf with IF := v }, response := none } ∧
      t.irqTimer = v.getLsbD s.platform.ifTimerBit.val ∧ t.irqJoypad = v.getLsbD s.platform.ifJoypadBit.val

/-- 20_memory.md R46: the four admitted writes store one byte into one cell and touch no other cell, no accumulator and
no button flag; a write of the value a cell holds changes nothing of the block. -/
def Obligations.WritesStoreOneByte : Prop :=
  ∀ r ∈ [Reg.TMA, .TAC, .IF, .JOYP], ∀ (v : Byte) (s : State),
    (∃ t, exec (Instr.wr r v) s = .next t ∧ cellOf t.rf r = v ∧ (∀ q, q ≠ r → cellOf t.rf q = cellOf s.rf q) ∧
      t.divAcc = s.divAcc ∧ t.timaAcc = s.timaAcc ∧ t.btn = s.btn ∧ t.platform = s.platform ∧
      t.requests = s.requests ∧ t.response = none) ∧
    exec (Instr.wr r (cellOf s.rf r)) s = .next { s with response := none }

/-- 20_memory.md R48: a read of `TMA` or `TAC` returns the latest write of the cell in the total order, whatever other
operations stand between (no operation of the Timer or Joypad writes these cells, 10_state.md R15, R16). That all 8 bits
come back is decisions D15, D16 (log 18). -/
def Obligations.ReadReturnsLatestWrite : Prop :=
  ∀ r ∈ [Reg.TMA, .TAC], ∀ (v : Byte) (is : List Instr) (s t : State),
    (∀ u, Instr.wr r u ∉ is) → Instr.reset ∉ is →
    execAll (Instr.wr r v :: (is ++ [Instr.rd r])) s = .next t → t.response = some v

/-! Encoding. -/

/-- 30_encoding.md R60 to R66: decoding the word of a well-formed operation gives it back, every operand at every value
its field admits. -/
def Obligations.DecodeAfterEncode : Prop :=
  ∀ i : Instr, i.wellFormed = true → decode (encode i) = .ok i

/-- 30_encoding.md R65, R70: the decoder is one to one on legal words: a word that decodes to an operation is that
operation's word, and the operation is well-formed. -/
def Obligations.EncodeAfterDecode : Prop :=
  ∀ (w : TxWord) (i : Instr), decode w = .ok i → i.wellFormed = true ∧ encode i = w

/-- 30_encoding.md R65, R66: the legal words are exactly those that match a row of the opcode map, and no word matches
two rows. -/
def Obligations.LegalWordsMatchOpcodeMap : Prop :=
  (∀ w : TxWord, (∃ i, decode w = .ok i) ↔ ∃ row ∈ opcodeMap, w &&& row.1 = row.2) ∧
    opcodeMap.Pairwise fun p q => ∀ w : TxWord, w &&& p.1 = p.2 → w &&& q.1 ≠ q.2

/-- 30_encoding.md R72: the worked encodings, legal and illegal. -/
def Obligations.WorkedEncodings : Prop :=
  [0x10000010#32, 0x10000400#32, 0x10000000#32, 0x20000000#32, 0x20000007#32, 0x30000004#32, 0x40000500#32,
      0x50000305#32, 0x50000210#32, 0x50000510#32, 0x50000400#32, 0xF0000000#32].map decode =
    [.ok (.step 16), .ok (.step 1024), .ok (.step 0), .ok (.press .a), .ok (.press .down), .ok (.release .right),
      .ok .rdJoyp, .ok (.wrTac 0x05), .ok (.wrTma 0x10), .ok (.wrJoyp 0x10), .ok (.wrIf 0x00), .ok .reset] ∧
  [0x00000000#32, 0x11000010#32, 0x20000008#32, 0x40000600#32, 0x40000501#32, 0xF0000001#32].map decode =
    [.error .reservedOp, .error .reservedNibble, .error .reservedField, .error .reservedRsel, .error .reservedField,
      .error .reservedField]

/-- 20_memory.md R41 (addresses are OPEN, D7; the address decoder is the model's, log 22): on a legal platform the
address decoder names each cell by its own address and nothing else, and an access of an address is the cell's own
operation. -/
def Obligations.PlatformAddressesNameTheirCells : Prop :=
  ∀ p : Platform, p.Legal → ∀ (a : Nat) (r : Reg), (cellAt p.addr a = some r ↔ addrOf p.addr r = a) ∧
    (addrOf p.addr r = a → getAt p.addr a = some (Instr.rd r) ∧ ∀ v, setAt p.addr a v = some (Instr.wr r v))

/-- 30_encoding.md R69 (decision D19): on every legal platform the expansions do what their names say. TIMER.ON leaves
the timer enabled with the clock select named, TIMER.OFF disabled with it; SELECT.* leave the groups named selected;
IRQ.CLEARALL leaves no interrupt pending. -/
def Obligations.PseudoOperationsDoWhatTheyName : Prop :=
  ∀ s : State, s.platform.Legal →
    (∀ cs, ∃ t, exec ((Pseudo.timerOn cs).expand s.platform) s = .next t ∧
      timerControl t.platform t.rf.TAC = { enabled := true, clockSelect := clockSelectOf cs }) ∧
    (∀ cs, ∃ t, exec ((Pseudo.timerOff cs).expand s.platform) s = .next t ∧
      timerControl t.platform t.rf.TAC = { enabled := false, clockSelect := clockSelectOf cs }) ∧
    (∀ q ∈ [(Pseudo.selectAct, true, false), (.selectDir, false, true), (.selectBoth, true, true),
        (.selectNone, false, false)],
      ∃ t, exec (q.1.expand s.platform) s = .next t ∧ actionSelected t.rf.JOYP = q.2.1 ∧
        directionSelected t.rf.JOYP = q.2.2) ∧
    (∃ t, exec (Pseudo.irqClearAll.expand s.platform) s = .next t ∧ t.irqTimer = false ∧ t.irqJoypad = false)
end

