-- ==== Sys2Proof/Laws/State.lean ====
section
/-! SUPPORT. What each update of State leaves in each field, and the small laws of cells and button flags. -/

namespace Sys2Proof.Machine

@[simp] theorem State.respond_rf (v : Option Byte) (s : State) : (s.respond v).rf = s.rf := rfl
@[simp] theorem State.respond_divAcc (v : Option Byte) (s : State) : (s.respond v).divAcc = s.divAcc := rfl
@[simp] theorem State.respond_timaAcc (v : Option Byte) (s : State) : (s.respond v).timaAcc = s.timaAcc := rfl
@[simp] theorem State.respond_btn (v : Option Byte) (s : State) : (s.respond v).btn = s.btn := rfl
@[simp] theorem State.respond_platform (v : Option Byte) (s : State) : (s.respond v).platform = s.platform := rfl
@[simp] theorem State.respond_requests (v : Option Byte) (s : State) : (s.respond v).requests = s.requests := rfl
@[simp] theorem State.respond_response (v : Option Byte) (s : State) : (s.respond v).response = v := rfl

@[simp] theorem State.putRegs_rf (rf : RegFile) (s : State) : (s.putRegs rf).rf = rf := rfl
@[simp] theorem State.putRegs_divAcc (rf : RegFile) (s : State) : (s.putRegs rf).divAcc = s.divAcc := rfl
@[simp] theorem State.putRegs_timaAcc (rf : RegFile) (s : State) : (s.putRegs rf).timaAcc = s.timaAcc := rfl
@[simp] theorem State.putRegs_btn (rf : RegFile) (s : State) : (s.putRegs rf).btn = s.btn := rfl
@[simp] theorem State.putRegs_platform (rf : RegFile) (s : State) : (s.putRegs rf).platform = s.platform := rfl
@[simp] theorem State.putRegs_requests (rf : RegFile) (s : State) : (s.putRegs rf).requests = s.requests := rfl
@[simp] theorem State.putRegs_response (rf : RegFile) (s : State) : (s.putRegs rf).response = s.response := rfl

@[simp] theorem State.putDivAcc_rf (n : Nat) (s : State) : (s.putDivAcc n).rf = s.rf := rfl
@[simp] theorem State.putDivAcc_divAcc (n : Nat) (s : State) : (s.putDivAcc n).divAcc = n := rfl
@[simp] theorem State.putDivAcc_timaAcc (n : Nat) (s : State) : (s.putDivAcc n).timaAcc = s.timaAcc := rfl
@[simp] theorem State.putDivAcc_btn (n : Nat) (s : State) : (s.putDivAcc n).btn = s.btn := rfl
@[simp] theorem State.putDivAcc_platform (n : Nat) (s : State) : (s.putDivAcc n).platform = s.platform := rfl
@[simp] theorem State.putDivAcc_requests (n : Nat) (s : State) : (s.putDivAcc n).requests = s.requests := rfl
@[simp] theorem State.putDivAcc_response (n : Nat) (s : State) : (s.putDivAcc n).response = s.response := rfl

@[simp] theorem State.putTimaAcc_rf (n : Nat) (s : State) : (s.putTimaAcc n).rf = s.rf := rfl
@[simp] theorem State.putTimaAcc_divAcc (n : Nat) (s : State) : (s.putTimaAcc n).divAcc = s.divAcc := rfl
@[simp] theorem State.putTimaAcc_timaAcc (n : Nat) (s : State) : (s.putTimaAcc n).timaAcc = n := rfl
@[simp] theorem State.putTimaAcc_btn (n : Nat) (s : State) : (s.putTimaAcc n).btn = s.btn := rfl
@[simp] theorem State.putTimaAcc_platform (n : Nat) (s : State) : (s.putTimaAcc n).platform = s.platform := rfl
@[simp] theorem State.putTimaAcc_requests (n : Nat) (s : State) : (s.putTimaAcc n).requests = s.requests := rfl
@[simp] theorem State.putTimaAcc_response (n : Nat) (s : State) : (s.putTimaAcc n).response = s.response := rfl

@[simp] theorem State.putButtons_rf (bs : Buttons) (s : State) : (s.putButtons bs).rf = s.rf := rfl
@[simp] theorem State.putButtons_divAcc (bs : Buttons) (s : State) : (s.putButtons bs).divAcc = s.divAcc := rfl
@[simp] theorem State.putButtons_timaAcc (bs : Buttons) (s : State) : (s.putButtons bs).timaAcc = s.timaAcc := rfl
@[simp] theorem State.putButtons_btn (bs : Buttons) (s : State) : (s.putButtons bs).btn = bs := rfl
@[simp] theorem State.putButtons_platform (bs : Buttons) (s : State) : (s.putButtons bs).platform = s.platform := rfl
@[simp] theorem State.putButtons_requests (bs : Buttons) (s : State) : (s.putButtons bs).requests = s.requests := rfl
@[simp] theorem State.putButtons_response (bs : Buttons) (s : State) : (s.putButtons bs).response = s.response := rfl

@[simp] theorem State.putRequests_rf (ws : List TxWord) (s : State) : (s.putRequests ws).rf = s.rf := rfl
@[simp] theorem State.putRequests_divAcc (ws : List TxWord) (s : State) : (s.putRequests ws).divAcc = s.divAcc := rfl
@[simp] theorem State.putRequests_timaAcc (ws : List TxWord) (s : State) : (s.putRequests ws).timaAcc = s.timaAcc := rfl
@[simp] theorem State.putRequests_btn (ws : List TxWord) (s : State) : (s.putRequests ws).btn = s.btn := rfl
@[simp] theorem State.putRequests_platform (ws : List TxWord) (s : State) : (s.putRequests ws).platform = s.platform := rfl
@[simp] theorem State.putRequests_requests (ws : List TxWord) (s : State) : (s.putRequests ws).requests = ws := rfl
@[simp] theorem State.putRequests_response (ws : List TxWord) (s : State) : (s.putRequests ws).response = s.response := rfl

/-! Cells (`RF[r]`). -/

theorem cellOf_setCell (rf : RegFile) (r q : Reg) (v : Byte) :
    cellOf (setCell rf r v) q = if q = r then v else cellOf rf q := by
  cases r <;> cases q <;> rfl

@[simp] theorem cellOf_setCell_self (rf : RegFile) (r : Reg) (v : Byte) : cellOf (setCell rf r v) r = v := by
  cases r <;> rfl

theorem cellOf_setCell_of_ne (rf : RegFile) (v : Byte) {r q : Reg} (h : q ≠ r) :
    cellOf (setCell rf r v) q = cellOf rf q := by
  simp [cellOf_setCell, h]

/-- Two register files with the same six bytes are equal. -/
theorem regFile_eq_of_cells {a b : RegFile} (h : ∀ r, cellOf a r = cellOf b r) : a = b := by
  cases a; cases b
  simp only [RegFile.mk.injEq]
  exact ⟨h .DIV, h .TIMA, h .TMA, h .TAC, h .IF, h .JOYP⟩

@[simp] theorem setIrq_IF (m : Byte) (rf : RegFile) : (setIrq m rf).IF = rf.IF ||| m := rfl

theorem cellOf_setIrq_of_ne (m : Byte) (rf : RegFile) {r : Reg} (h : r ≠ .IF) :
    cellOf (setIrq m rf) r = cellOf rf r := by
  cases r <;> first | rfl | exact absurd rfl h

/-! Button flags (`btn[x]`). -/

theorem flagOf_setFlag (bs : Buttons) (x y : Button) (v : Bool) :
    flagOf (setFlag bs x v) y = if y = x then v else flagOf bs y := by
  cases x <;> cases y <;> rfl

@[simp] theorem flagOf_setFlag_self (bs : Buttons) (x : Button) (v : Bool) : flagOf (setFlag bs x v) x = v := by
  cases x <;> rfl

theorem flagOf_setFlag_of_ne (bs : Buttons) (v : Bool) {x y : Button} (h : y ≠ x) :
    flagOf (setFlag bs x v) y = flagOf bs y := by
  simp [flagOf_setFlag, h]

/-- Two button states with the same eight flags are equal. -/
theorem buttons_eq_of_flags {a b : Buttons} (h : ∀ x, flagOf a x = flagOf b x) : a = b := by
  cases a; cases b
  simp only [Buttons.mk.injEq]
  exact ⟨h .a, h .b, h .select, h .start, h .right, h .left, h .up, h .down⟩

@[simp] theorem flagOf_released (x : Button) : flagOf Buttons.released x = false := by
  cases x <;> rfl

end Sys2Proof.Machine
end

