-- ==== Sys2Proof/Laws/Ops.lean ====
section
/-! SUPPORT. What each shared operation can do, said once; the table `JOYP_HI` takes every function. -/

namespace Sys2Proof.Machine

/-- A loop with enough fuel takes out every whole period, one turn each (40_timer.md R81, R84). -/
theorem drainLoop_spec (turn : RegFile → RegFile) {period : Nat} (hp : 0 < period) (fuel acc : Nat) (rf : RegFile)
    (hf : acc ≤ fuel) : drainLoop turn period fuel acc rf = (acc % period, turn^[acc / period] rf) := by
  induction fuel generalizing acc rf with
  | zero =>
    obtain rfl : acc = 0 := by omega
    simp [drainLoop]
  | succ fuel ih =>
    unfold drainLoop
    split
    · rename_i h
      rw [ih _ _ (by omega), ← Nat.mod_eq_sub_mod h, Nat.div_eq_sub_div hp h, Function.iterate_succ_apply]
    · rename_i h
      rw [Nat.mod_eq_of_lt (by omega), Nat.div_eq_of_lt (by omega)]
      rfl

theorem drain_spec (turn : RegFile → RegFile) {period : Nat} (hp : 0 < period) (acc : Nat) (rf : RegFile) :
    drain turn period acc rf = (acc % period, turn^[acc / period] rf) :=
  drainLoop_spec turn hp acc acc rf le_rfl

/-- RD of a cell answers the stored byte and touches only `response`. -/
theorem readCell_spec (r : Reg) (s : State) : readCell r s = .next { s with response := some (cellOf s.rf r) } := rfl

/-- WR of a cell touches the register file and `response`. -/
theorem writeCell_spec (r : Reg) (v : Byte) (s : State) :
    writeCell r v s = .next { s with rf := setCell s.rf r v, response := none } := rfl

/-- What a step can do when it answers a next state. -/
theorem step_cases {s t : State} (h : step s = .next t) :
    (s.requests = [] ∧ t = s) ∨
      ∃ w ws i, s.requests = w :: ws ∧ decode w = .ok i ∧ exec i (s.putRequests ws) = .next t := by
  unfold step State.fetch at h
  cases hr : s.requests with
  | nil =>
    simp only [hr, Host.Outcome.next.injEq] at h
    exact .inl ⟨rfl, h.symm⟩
  | cons w ws =>
    simp only [hr] at h
    cases hd : decode w with
    | ok i => exact .inr ⟨w, ws, i, rfl, hd, by simpa [hd] using h⟩
    | error e => simp [hd] at h

theorem hostRun_succ (M : Host.Core) {s t : M.State} (h : M.step s = .next t) (k : Nat) :
    Host.Core.run M (k + 1) s = Host.Core.run M k t := by
  rw [Host.Core.run, h]

/-- A run goes on from the state its first step answers. -/
theorem run_succ_of_next {s t : State} (h : step s = .next t) (k : Nat) :
    Host.Core.run Sys2Proof.core (k + 1) s = Host.Core.run Sys2Proof.core k t :=
  hostRun_succ Sys2Proof.core h k

/-- Every function from bytes to nibbles is some table of `JOYP_HI` (41_joypad.md R105): the parameter shuts none out. -/
theorem joypHi_complete (f : Byte → Nibble) : ∃ h : JoypHi, ∀ b, joypHiAt h b = f b := by
  refine ⟨⟨0, (List.finRange 256).map fun k => (BitVec.ofFin k, f (BitVec.ofFin k))⟩, fun b => ?_⟩
  have key : ∀ l : List (Fin 256), b.toFin ∈ l →
      (l.map fun k => ((BitVec.ofFin k : Byte), f (BitVec.ofFin k))).lookup b = some (f b) := by
    intro l hl
    induction l with
    | nil => simp at hl
    | cons k l ih =>
      simp only [List.map_cons, List.lookup_cons]
      by_cases hk : b = BitVec.ofFin k
      · subst hk; simp
      · rw [beq_false_of_ne hk]
        exact ih ((List.mem_cons.mp hl).resolve_left fun e => hk (by rw [← e]))
  simp [joypHiAt, key _ (List.mem_finRange _)]

end Sys2Proof.Machine
end

