-- ==== Sys2Proof/Laws/Joypad.lean ====
section
/-! SUPPORT. The byte RD.JOYP returns, as its two nibbles; what PRESS does. -/

namespace Sys2Proof.Machine

theorem joypRead_getLsbD (s : State) (j : Nat) :
    (joypRead s).getLsbD j =
      if j < 4 then (joypLow s.rf.JOYP s.btn).getLsbD j
      else (joypHiAt s.platform.joypHi s.rf.JOYP).getLsbD (j - 4) := by
  show BitVec.getLsbD (w := 4 + 4) (_ ++ _) j = _
  rw [BitVec.getLsbD_append]

/-- The low nibble is `low` of 41_joypad.md R102, whatever `JOYP_HI` is. -/
theorem joypRead_low (s : State) : (joypRead s).extractLsb' 0 4 = joypLow s.rf.JOYP s.btn := by
  apply BitVec.eq_of_getLsbD_eq
  intro i hi
  rw [BitVec.getLsbD_extractLsb', joypRead_getLsbD]
  simp [hi]

/-- The high nibble is `JOYP_HI` of the stored byte. -/
theorem joypRead_high (s : State) :
    (joypRead s).extractLsb' 4 4 = joypHiAt s.platform.joypHi s.rf.JOYP := by
  apply BitVec.eq_of_getLsbD_eq
  intro i hi
  rw [BitVec.getLsbD_extractLsb', joypRead_getLsbD]
  simp [hi]

/-- PRESS of a released button (41_joypad.md R100). -/
theorem execPress_of_released {x : Button} {s : State} (h : flagOf s.btn x = false) :
    execPress x s =
      .next { s with rf := setIrq (joypadBit s.platform) s.rf, btn := setFlag s.btn x true, response := none } := by
  simp [execPress, h, State.respond, State.putRegs, State.putButtons]

/-- PRESS of a pressed button changes no state of the block (41_joypad.md R100). -/
theorem execPress_of_pressed {x : Button} {s : State} (h : flagOf s.btn x = true) :
    execPress x s = .next { s with response := none } := by
  have hb : setFlag s.btn x true = s.btn := buttons_eq_of_flags fun y => by
    rw [flagOf_setFlag]
    split <;> simp_all
  simp [execPress, h, hb, State.respond, State.putRegs, State.putButtons]

end Sys2Proof.Machine
end

