-- ==== Sys2Proof/Laws/PerInstr.lean ====
section
/-! SUPPORT. The family `LegalWord`: "`T[27:24]` is zero in every legal word" (30_encoding.md R60), one lemma a
constructor. -/

namespace Sys2Proof.Laws.LegalWord

/-- The encoder leaves the reserved nibble of the word zero. -/
def Statement (i : Instr) : Prop :=
  i.wellFormed = true → (encode i).extractLsb' 24 4 = 0

theorem step (n : Nat) : Statement (.step n) := by
  intro h
  have hn : n < 2 ^ 24 := by simpa [Instr.wellFormed] using h
  apply BitVec.eq_of_toNat_eq
  simp only [encode, BitVec.extractLsb'_toNat, BitVec.toNat_or, BitVec.toNat_ofNat, Nat.shiftRight_or_distrib]
  rw [Nat.mod_eq_of_lt (by omega : n < 2 ^ 32), Nat.shiftRight_eq_div_pow n, Nat.div_eq_of_lt hn]
  rfl

theorem press (x : Button) : Statement (.press x) := fun _ => by cases x <;> rfl

theorem release (x : Button) : Statement (.release x) := fun _ => by cases x <;> rfl

theorem rdDiv : Statement .rdDiv := fun _ => rfl

theorem rdTima : Statement .rdTima := fun _ => rfl

theorem rdTma : Statement .rdTma := fun _ => rfl

theorem rdTac : Statement .rdTac := fun _ => rfl

theorem rdIf : Statement .rdIf := fun _ => rfl

theorem rdJoyp : Statement .rdJoyp := fun _ => rfl

/-- A written byte stays below the reserved nibble. -/
theorem encodeWrite_reserved (r : Reg) (v : Byte) : (encodeWrite r v).extractLsb' 24 4 = 0 := by
  have hv : v.toNat < 2 ^ 24 := lt_trans v.isLt (by decide)
  apply BitVec.eq_of_toNat_eq
  simp only [encodeWrite, BitVec.extractLsb'_toNat, BitVec.toNat_or, BitVec.toNat_setWidth (x := v),
    Nat.shiftRight_or_distrib]
  rw [Nat.mod_eq_of_lt (by omega : v.toNat < 2 ^ 32), Nat.shiftRight_eq_div_pow v.toNat, Nat.div_eq_of_lt hv]
  cases r <;> rfl

theorem wrDiv (v : Byte) : Statement (.wrDiv v) := fun _ => encodeWrite_reserved .DIV v

theorem wrTima (v : Byte) : Statement (.wrTima v) := fun _ => encodeWrite_reserved .TIMA v

theorem wrTma (v : Byte) : Statement (.wrTma v) := fun _ => encodeWrite_reserved .TMA v

theorem wrTac (v : Byte) : Statement (.wrTac v) := fun _ => encodeWrite_reserved .TAC v

theorem wrIf (v : Byte) : Statement (.wrIf v) := fun _ => encodeWrite_reserved .IF v

theorem wrJoyp (v : Byte) : Statement (.wrJoyp v) := fun _ => encodeWrite_reserved .JOYP v

theorem reset : Statement .reset := fun _ => rfl

end Sys2Proof.Laws.LegalWord
end

