-- ==== Sys2Proof/Laws/Timer.lean ====
section
/-! SUPPORT. What STEP does, in terms of counted wraps and ticks. -/

namespace Sys2Proof.Machine

/-- Every period is at least 16 (10_state.md R17), so the loops end. -/
theorem timaPeriod_ge (c : ClockSelect) : 16 ≤ timaPeriod c := by
  cases c <;> decide

theorem timaPeriod_pos (c : ClockSelect) : 0 < timaPeriod c := by
  have := timaPeriod_ge c
  omega

theorem State.period_pos (s : State) : 0 < s.period := timaPeriod_pos _

/-- `k` wraps add `k` to `DIV` modulo 256 and touch nothing else. -/
theorem wrap_iterate (k : Nat) (rf : RegFile) : wrap^[k] rf = { rf with DIV := rf.DIV + BitVec.ofNat 8 k } := by
  induction k generalizing rf with
  | zero => simp
  | succ k ih =>
    rw [Function.iterate_succ_apply, ih]
    simp only [wrap, RegFile.mk.injEq, and_true]
    rw [BitVec.add_assoc, Nat.add_comm k 1, BitVec.ofNat_add]
    rfl

@[simp] theorem wrap_iterate_TIMA (k : Nat) (rf : RegFile) : (wrap^[k] rf).TIMA = rf.TIMA := by rw [wrap_iterate]

@[simp] theorem wrap_iterate_TMA (k : Nat) (rf : RegFile) : (wrap^[k] rf).TMA = rf.TMA := by rw [wrap_iterate]

@[simp] theorem wrap_iterate_TAC (k : Nat) (rf : RegFile) : (wrap^[k] rf).TAC = rf.TAC := by rw [wrap_iterate]

@[simp] theorem wrap_iterate_IF (k : Nat) (rf : RegFile) : (wrap^[k] rf).IF = rf.IF := by rw [wrap_iterate]

@[simp] theorem wrap_iterate_JOYP (k : Nat) (rf : RegFile) : (wrap^[k] rf).JOYP = rf.JOYP := by rw [wrap_iterate]

theorem dividerHalf_eq (n : Nat) (s : State) :
    dividerHalf n s =
      { s with rf := wrap^[(s.divAcc + n) / 256] s.rf, divAcc := (s.divAcc + n) % 256 } := by
  simp [dividerHalf, divPeriod, drain_spec, State.putRegs, State.putDivAcc]

theorem timerHalf_of_enabled (n : Nat) {s : State} (h : s.enabled) :
    timerHalf n s =
      { s with rf := (tick s.platform)^[(s.timaAcc + n) / s.period] s.rf, timaAcc := (s.timaAcc + n) % s.period } := by
  have h' : (timerControl s.platform s.rf.TAC).enabled = true := h
  simp only [timerHalf, h', if_true, drain_spec _ (timaPeriod_pos _), State.putRegs, State.putTimaAcc, State.period]

theorem timerHalf_of_not_enabled (n : Nat) {s : State} (h : ¬s.enabled) :
    timerHalf n s = { s with timaAcc := s.timaAcc + n } := by
  have h' : (timerControl s.platform s.rf.TAC).enabled = false := by simpa [State.enabled] using h
  simp [timerHalf, h', State.putTimaAcc]

/-- TICK touches `TIMA` and `IF` only. -/
theorem tick_frame (p : Platform) (rf : RegFile) :
    (tick p rf).DIV = rf.DIV ∧ (tick p rf).TMA = rf.TMA ∧ (tick p rf).TAC = rf.TAC ∧ (tick p rf).JOYP = rf.JOYP := by
  unfold tick
  split <;> exact ⟨rfl, rfl, rfl, rfl⟩

theorem tick_iterate_frame (p : Platform) (k : Nat) (rf : RegFile) :
    ((tick p)^[k] rf).DIV = rf.DIV ∧ ((tick p)^[k] rf).TMA = rf.TMA ∧ ((tick p)^[k] rf).TAC = rf.TAC ∧
      ((tick p)^[k] rf).JOYP = rf.JOYP := by
  induction k generalizing rf with
  | zero => simp
  | succ k ih =>
    rw [Function.iterate_succ_apply]
    obtain ⟨h1, h2, h3, h4⟩ := ih (tick p rf)
    obtain ⟨g1, g2, g3, g4⟩ := tick_frame p rf
    exact ⟨h1.trans g1, h2.trans g2, h3.trans g3, h4.trans g4⟩

@[simp] theorem tick_iterate_DIV (p : Platform) (k : Nat) (rf : RegFile) : ((tick p)^[k] rf).DIV = rf.DIV :=
  (tick_iterate_frame p k rf).1

@[simp] theorem tick_iterate_TMA (p : Platform) (k : Nat) (rf : RegFile) : ((tick p)^[k] rf).TMA = rf.TMA :=
  (tick_iterate_frame p k rf).2.1

@[simp] theorem tick_iterate_TAC (p : Platform) (k : Nat) (rf : RegFile) : ((tick p)^[k] rf).TAC = rf.TAC :=
  (tick_iterate_frame p k rf).2.2.1

@[simp] theorem tick_iterate_JOYP (p : Platform) (k : Nat) (rf : RegFile) : ((tick p)^[k] rf).JOYP = rf.JOYP :=
  (tick_iterate_frame p k rf).2.2.2

/-- A tick and a wrap commute: they touch different cells (40_timer.md R86). -/
theorem tick_wrap_comm (p : Platform) (rf : RegFile) : tick p (wrap rf) = wrap (tick p rf) := by
  unfold tick wrap setIrq
  dsimp only
  split <;> rfl

theorem tick_iterate_wrap_iterate (p : Platform) (a b : Nat) (rf : RegFile) :
    (tick p)^[a] (wrap^[b] rf) = wrap^[b] ((tick p)^[a] rf) :=
  Function.Commute.iterate_iterate (fun r => tick_wrap_comm p r) a b rf

/-- Everything an enabled STEP does (40_timer.md R80). -/
theorem execStep_of_enabled (n : Nat) {s : State} (h : s.enabled) :
    execStep n s =
      .next { s with
        rf := (tick s.platform)^[(s.timaAcc + n) / s.period] (wrap^[(s.divAcc + n) / 256] s.rf)
        divAcc := (s.divAcc + n) % 256
        timaAcc := (s.timaAcc + n) % s.period
        response := none } := by
  have he : (dividerHalf n s).enabled := by simpa [State.enabled, dividerHalf_eq] using h
  rw [dividerHalf_eq] at he
  simp [execStep, dividerHalf_eq, timerHalf_of_enabled n he, State.respond, State.period]

/-- Everything a STEP does with the timer disabled (40_timer.md R80, R83). -/
theorem execStep_of_not_enabled (n : Nat) {s : State} (h : ¬s.enabled) :
    execStep n s =
      .next { s with
        rf := wrap^[(s.divAcc + n) / 256] s.rf
        divAcc := (s.divAcc + n) % 256
        timaAcc := s.timaAcc + n
        response := none } := by
  have he : ¬(dividerHalf n s).enabled := by simpa [State.enabled, dividerHalf_eq] using h
  rw [dividerHalf_eq] at he
  simp [execStep, dividerHalf_eq, timerHalf_of_not_enabled n he, State.respond]

end Sys2Proof.Machine
end

