-- ==== Sys2Proof/Tests/Slice0.lean ====
section
/-! SUPPORT. Tests. Expected results are the worked examples of 30_encoding.md R72 and the vectors of 95_test_vectors.md
(their ids stand beside them), which take the default bit numbers. Then a witness for every statement with hypotheses. -/

namespace Sys2Proof.Tests

open Sys2Proof.Machine

/-! ## Well-formedness -/

theorem test_wellFormed_refuses_long_step : (Instr.step 0x1000000).wellFormed = false := by decide

theorem test_wellFormed_admits_longest_step : (Instr.step 0xFFFFFF).wellFormed = true := by decide

/-! ## Decoding: words written out bit by bit from the formats of R61 and the codes of R62, R63, R65 -/

theorem test_decode_step : decode 0b00010000000000000000000000010000#32 = .ok (.step 16) := by decide

theorem test_decode_step_longest : decode 0b00010000111111111111111111111111#32 = .ok (.step 16777215) := by decide

theorem test_decode_press : decode 0b00100000000000000000000000000111#32 = .ok (.press .down) := by decide

theorem test_decode_release : decode 0b00110000000000000000000000000100#32 = .ok (.release .right) := by decide

theorem test_decode_buttons :
    [0x20000000#32, 0x20000001#32, 0x20000002#32, 0x20000003#32, 0x20000004#32, 0x20000005#32, 0x20000006#32].map decode =
      [Button.a, .b, .select, .start, .right, .left, .up].map fun x => .ok (.press x) := by decide

theorem test_decode_rdDiv : decode 0b01000000000000000000000000000000#32 = .ok .rdDiv := by decide

theorem test_decode_rdTima : decode 0b01000000000000000000000100000000#32 = .ok .rdTima := by decide

theorem test_decode_rdTma : decode 0b01000000000000000000001000000000#32 = .ok .rdTma := by decide

theorem test_decode_rdTac : decode 0b01000000000000000000001100000000#32 = .ok .rdTac := by decide

theorem test_decode_rdIf : decode 0b01000000000000000000010000000000#32 = .ok .rdIf := by decide

theorem test_decode_rdJoyp : decode 0b01000000000000000000010100000000#32 = .ok .rdJoyp := by decide

theorem test_decode_wrDiv : decode 0b01010000000000000000000000010010#32 = .ok (.wrDiv 0x12) := by decide

theorem test_decode_wrTima : decode 0b01010000000000000000000111111111#32 = .ok (.wrTima 0xFF) := by decide

theorem test_decode_wrTma : decode 0b01010000000000000000001000010000#32 = .ok (.wrTma 0x10) := by decide

theorem test_decode_wrTac : decode 0b01010000000000000000001100000101#32 = .ok (.wrTac 0x05) := by decide

theorem test_decode_wrIf : decode 0b01010000000000000000010000000001#32 = .ok (.wrIf 0x01) := by decide

theorem test_decode_wrJoyp : decode 0b01010000000000000000010111111111#32 = .ok (.wrJoyp 0xFF) := by decide

theorem test_decode_reset : decode 0b11110000000000000000000000000000#32 = .ok .reset := by decide

/-- The illegal words of 95_test_vectors.md 2.6, clause by clause. -/
theorem test_decode_illegal :
    [0x00000000#32, 0x60000000#32, 0xE0000000#32].map decode = List.replicate 3 (.error .reservedOp) ∧
    [0x11000010#32, 0x48000500#32].map decode = List.replicate 2 (.error .reservedNibble) ∧
    [0x20000008#32, 0x30000100#32, 0x40000501#32, 0x50000800#32, 0x40010000#32, 0xF0000001#32].map decode =
      List.replicate 6 (.error .reservedField) ∧
    [0x40000600#32, 0x50000700#32].map decode = List.replicate 2 (.error .reservedRsel) := by decide

theorem test_decodeTableWord :
    decodeTableWord 32 0x50000305 = some (.wrTac 0x05) ∧ decodeTableWord 32 0x40000600 = none := by decide

/-- The word placed runs as the first operation after reset. -/
theorem test_withFetchWord :
    step (State.reset.withFetchWord 32 0x20000003) = exec (.press .start) State.reset := by rfl

/-! ## Meanings -/

/-- What operation `i` from `s` leaves, looked at through `f`; none when it stops. -/
def after {α : Type} (i : Instr) (s : State) (f : State → α) : Option α :=
  match exec i s with
  | .next t => some (f t)
  | .fault _ => none
  | .refused _ => none

/-- The reset state with the timer's cells and accumulators given. -/
def timerState (tac tima tma iff : Byte) (ta : Nat) : State :=
  { State.reset with rf := { DIV := 0xFE, TIMA := tima, TMA := tma, TAC := tac, IF := iff, JOYP := 0x30 }, timaAcc := ta }

/-- The reset state with `IF`, `JOYP` and the buttons given. -/
def padState (iff sel : Byte) (bs : Buttons) : State :=
  { State.reset with rf := { State.reset.rf with IF := iff, JOYP := sel }, btn := bs }

/-- S3, T23, T24, T30: reload, other bits of `IF` kept, a reload between counts, a stale accumulator drained. -/
theorem test_step_timer :
    after (.step 16) (timerState 0x05 0xFF 0x10 0xE1 0) (fun t => (t.rf.TIMA, t.rf.IF, t.timaAcc)) = some (0x10, 0xE5, 0) ∧
    after (.step 48) (timerState 0x05 0xFE 0xFE 0 0) (fun t => (t.rf.TIMA, t.rf.IF, t.timaAcc)) = some (0xFF, 0x04, 0) ∧
    after (.step 0) (timerState 0x05 0 0 0 40) (fun t => (t.rf.TIMA, t.rf.IF, t.timaAcc)) = some (0x02, 0, 8) := by decide

/-- T5, T15: three divider wraps in one STEP; the disabled timer is fed and not drained. -/
theorem test_step_divider :
    after (.step 1000) (timerState 0x00 0x12 0 0 5) (fun t => (t.rf.DIV, t.divAcc, t.rf.TIMA, t.timaAcc, t.rf.IF)) =
      some (0x01, 232, 0x12, 1005, 0) := by decide

/-- B9: only the joypad bit changes. -/
theorem test_press_raises :
    after (.press .left) (padState 0xEF 0x30 Buttons.released) (fun t => (t.rf.IF, t.btn)) =
      some (0xFF, { Buttons.released with left := true }) := by decide

/-- B3: a repeated press does not raise a cleared flag again. -/
theorem test_press_repeated :
    after (.press .a) (padState 0 0x30 { Buttons.released with a := true }) (fun t => (t.rf.IF, t.btn)) =
      some (0, { Buttons.released with a := true }) := by decide

/-- B4: the flag goes, the interrupt stays. -/
theorem test_release :
    after (.release .a) (padState 0x10 0x30 { Buttons.released with a := true, right := true })
      (fun t => (t.rf.IF, t.btn)) = some (0x10, { Buttons.released with right := true }) := by decide

/-- J4: `b` and `up` pressed, under each of the four selections. -/
theorem test_rdJoyp_both_groups :
    [0x00#8, 0xDF#8, 0x20#8, 0xFF#8].map (fun sel =>
      after .rdJoyp (padState 0 sel { Buttons.released with b := true, up := true }) State.response) =
      [some (some 0xF9), some (some 0xFD), some (some 0xFB), some (some 0xFF)] := by decide

/-- J7: `select` and `left` pressed. -/
theorem test_rdJoyp_positions :
    [0xCF#8, 0x10#8, 0xEF#8, 0x30#8].map (fun sel =>
      after .rdJoyp (padState 0 sel { Buttons.released with select := true, left := true }) State.response) =
      [some (some 0xF9), some (some 0xFB), some (some 0xFD), some (some 0xFF)] := by decide

theorem test_rdDiv : after .rdDiv (timerState 1 2 3 4 0) State.response = some (some 0xFE) := by decide

theorem test_rdTima : after .rdTima (timerState 1 2 3 4 0) State.response = some (some 2) := by decide

theorem test_rdTma : after .rdTma (timerState 1 2 3 4 0) State.response = some (some 3) := by decide

theorem test_rdTac : after .rdTac (timerState 1 2 3 4 0) State.response = some (some 1) := by decide

/-- M5: the read does not clear. -/
theorem test_rdIf : after .rdIf (timerState 1 2 3 0x10 0) (fun t => (t.response, t.rf.IF)) = some (some 0x10, 0x10) := by
  decide

/-- M7: `TIMA` is not reloaded. -/
theorem test_wrTma : after (.wrTma 0x80) (timerState 1 0x33 0 0 0) (fun t => (t.rf.TMA, t.rf.TIMA)) = some (0x80, 0x33) := by
  decide

/-- M6, M2: nothing but `TAC`, all eight bits of it. -/
theorem test_wrTac :
    after (.wrTac 0xFD) (timerState 0 0x33 0 0 700) (fun t => (t.rf.TAC, t.rf.TIMA, t.timaAcc)) =
      some (0xFD, 0x33, 700) := by decide

/-- M3: the dispatcher clears the timer bit only. -/
theorem test_wrIf : after (.wrIf 0x10) (timerState 0 0 0 0x14 0) (fun t => t.rf.IF) = some 0x10 := by decide

/-- M8: selecting a group with a held button raises nothing. -/
theorem test_wrJoyp :
    after (.wrJoyp 0xCF) (padState 0 0x30 { Buttons.released with a := true }) (fun t => (t.rf.JOYP, t.rf.IF)) =
      some (0xCF, 0) := by decide

/-- M10. -/
theorem test_wrDiv_refused : exec (.wrDiv 0) State.reset = .refused .writeOfDivider := by rfl

/-- M11. -/
theorem test_wrTima_refused : exec (.wrTima 0xFF) State.reset = .refused .writeOfTimerCounter := by rfl

/-- Another legal platform: `EN` in bit 7, `CS` in bits 4:3, the timer bit 0, the joypad bit 7, `RF_RESET` as P1's. -/
def otherPlatform : Platform :=
  { defaultPlatform with
    tacEnBit := 7, tacCsLo := 3, ifTimerBit := 0, ifJoypadBit := 7
    rfReset := { DIV := 0xAB, TIMA := 0xFE, TMA := 0x00, TAC := 0x00, IF := 0xE1, JOYP := 0xCF } }

/-- Z1, with `RF_RESET` the start state of program P1. -/
theorem test_reset :
    after .reset { padState 0x10 0 { Buttons.released with a := true } with
        platform := otherPlatform, divAcc := 232, timaAcc := 1000 }
      (fun t => (t.rf, t.divAcc, t.timaAcc, t.btn)) =
      some ({ DIV := 0xAB, TIMA := 0xFE, TMA := 0x00, TAC := 0x00, IF := 0xE1, JOYP := 0xCF }, 0, 0, Buttons.released) := by
  decide

/-- R16, R18: the fields of `TAC` and `IF` follow the parameters (`EN` = 1, `CS` = 2, period 64, bit 0 raised). -/
theorem test_step_other_platform :
    after (.step 64) { timerState 0x90 0xFF 0x10 0 0 with platform := otherPlatform } (fun t => (t.rf.TIMA, t.rf.IF)) =
      some (0x10, 0x01) := by decide

/-! ## Witnesses: concrete states that meet each statement's hypotheses, at the values where its clauses meet -/

/-- Enabled, period 16, one cycle short of a tick, `TIMA` about to overflow. -/
def nearOverflow : State := timerState 0x05 0xFF 0x10 0 15

/-- The same one count earlier. -/
def nearLastCount : State := timerState 0x05 0xFE 0x10 0 15

/-- `nearOverflow` with `STEP 1`, `RD.TIMA` issued. -/
def queued : State := nearOverflow.putRequests [0x10000001#32, 0x40000100#32]

theorem witness_CreatedBlockIsWellFormed : defaultPlatform.Legal ∧ otherPlatform.Legal := by decide

theorem witness_inv : nearOverflow.Inv ∧ queued.Inv := ⟨⟨by decide, by decide⟩, ⟨by decide, by decide⟩⟩

theorem witness_StepKeepsWellFormed : ∃ t, queued.Inv ∧ step queued = .next t ∧ t.rf.TIMA = 0x10 :=
  ⟨_, witness_inv.2, rfl, by decide⟩

theorem witness_reset_reachable : Reachable State.reset := .created _ (by decide)

/-- AccumulatorBounds: a reachable state with `div_acc` at its bound, 255; an enabled state. -/
theorem witness_AccumulatorBounds : (∃ s, Reachable s ∧ s.divAcc = 255) ∧ nearOverflow.enabled := by
  refine ⟨⟨_, .stepped _ _ (.issued State.reset 0x100000FF#32 witness_reset_reachable) rfl, ?_⟩, by decide⟩
  decide

theorem witness_OperationsKeepPlatformAndRequests : ∃ t, exec (.step 1) queued = .next t ∧ t.requests = queued.requests :=
  ⟨_, rfl, by decide⟩

theorem witness_StepRunsOldestRequest :
    (queued.requests = [0x10000001#32, 0x40000100#32] ∧ decode 0x10000001#32 = .ok (.step 1)) ∧
    (nearOverflow.putRequests [0x40000600#32]).requests = [0x40000600#32] ∧
    decode 0x40000600#32 = .error .reservedRsel ∧ nearOverflow.requests = [] := by decide

theorem witness_AdmittedRequestsNeverStop : ∀ w ∈ queued.requests, AdmittedWord w := by
  intro w hw
  rcases List.mem_cons.mp hw with rfl | hw
  · exact ⟨.step 1, by decide, trivial⟩
  · obtain rfl := List.mem_singleton.mp hw
    exact ⟨.rdTima, by decide, trivial⟩

theorem witness_OperationsCompleteWithoutFault : Admitted (.press .a) ∧ ¬Admitted (.wrDiv 0) := ⟨trivial, fun h => h⟩

theorem witness_DisabledStepOnlyFeedsAccumulator :
    (timerState 0x01 0xFF 0 0 1024).rf.TAC.getLsbD State.reset.platform.tacEnBit.val = false := by decide

/-- ClockSelectChoosesPeriod: an enabled state for each clock select; `TIMA` at and past its last count. -/
theorem witness_ClockSelectChoosesPeriod :
    (∀ tac ∈ [0x04#8, 0x05#8, 0x06#8, 0x07#8], (timerState tac 0 0 0 0).enabled) ∧
    nearLastCount.rf.TIMA.toNat + (nearLastCount.timaAcc + 1) / 16 < 256 ∧
    ¬nearOverflow.rf.TIMA.toNat + (nearOverflow.timaAcc + 1) / 16 < 256 := by decide

/-- TickCountsOrReloads: one tick due at 0xFE and at 0xFF, with the timer bit clear and set. -/
theorem witness_TickCountsOrReloads :
    (nearLastCount.enabled ∧ (nearLastCount.timaAcc + 1) / nearLastCount.period = 1 ∧ nearLastCount.rf.TIMA ≠ 0xFF) ∧
    (nearOverflow.enabled ∧ (nearOverflow.timaAcc + 1) / nearOverflow.period = 1 ∧ nearOverflow.rf.TIMA = 0xFF) ∧
    (timerState 0x05 0xFF 0x10 0x04 0).irqTimer = true := by decide

/-- TimerClosedForm: `k` one below `d` and `k` equal to `d`. -/
theorem witness_TimerClosedForm :
    nearLastCount.enabled ∧ (nearLastCount.timaAcc + 1) / nearLastCount.period + 1 = 256 - nearLastCount.rf.TIMA.toNat ∧
    nearOverflow.enabled ∧ (nearOverflow.timaAcc + 1) / nearOverflow.period = 256 - nearOverflow.rf.TIMA.toNat := by decide

theorem witness_StepFrame :
    (timerState 0x05 0xFF 0x10 0x04 0).irqTimer = true ∧ ¬(timerState 0x01 0 0 0 0).enabled := by decide

/-- StepZeroDrainsOnlyStaleAccumulator: just below the period, at it, one below twice the period; and disabled. -/
theorem witness_StepZeroDrainsOnlyStaleAccumulator :
    nearOverflow.divAcc < 256 ∧ (nearOverflow.enabled → nearOverflow.timaAcc < nearOverflow.period) ∧
    (∀ ta ∈ [16, 31], (timerState 0x05 0xFF 0x10 0 ta).enabled ∧ (timerState 0x05 0xFF 0x10 0 ta).period ≤ ta ∧
      ta < 2 * (timerState 0x05 0xFF 0x10 0 ta).period ∧ (timerState 0x05 0xFF 0x10 0 ta).rf.TIMA = 0xFF) ∧
    ¬(timerState 0x01 0 0 0 40).enabled := by decide

/-- StepHalvesAreIndependent: two states that differ in every cell the divider half does not read, and two that differ
in every cell the timer half does not. -/
theorem witness_StepHalvesAreIndependent :
    (nearOverflow.rf.DIV = (timerState 0x04 0 0 1 0).rf.DIV ∧ nearOverflow.divAcc = (timerState 0x04 0 0 1 0).divAcc ∧
      ∃ t t', exec (.step 1) nearOverflow = .next t ∧ exec (.step 1) (timerState 0x04 0 0 1 0) = .next t') ∧
    ∃ s, s = { nearOverflow with divAcc := 7, rf := { nearOverflow.rf with DIV := 1, JOYP := 0 } } ∧ s ≠ nearOverflow ∧
      s.platform = nearOverflow.platform ∧ s.rf.TAC = nearOverflow.rf.TAC ∧ s.rf.TMA = nearOverflow.rf.TMA ∧
      s.rf.TIMA = nearOverflow.rf.TIMA ∧ s.rf.IF = nearOverflow.rf.IF ∧ s.timaAcc = nearOverflow.timaAcc :=
  ⟨⟨by decide, by decide, _, _, rfl, rfl⟩, _, rfl, by decide, by decide⟩

/-- T16's byte against 0x05. -/
theorem witness_IgnoredTacBitsHaveNoEffect :
    (0xFD#8).getLsbD nearOverflow.platform.tacEnBit.val = nearOverflow.rf.TAC.getLsbD nearOverflow.platform.tacEnBit.val ∧
    (0xFD#8).getLsbD nearOverflow.platform.tacCsLo.val = nearOverflow.rf.TAC.getLsbD nearOverflow.platform.tacCsLo.val ∧
    (0xFD#8).getLsbD (nearOverflow.platform.tacCsLo.val + 1) =
      nearOverflow.rf.TAC.getLsbD (nearOverflow.platform.tacCsLo.val + 1) ∧ 0xFD#8 ≠ nearOverflow.rf.TAC := by decide

/-- BacklogAppliedOnEnable, T31: 62 ticks, below `d` from `TIMA` = 0; equal to `d` from `TIMA` = 194. -/
theorem witness_BacklogAppliedOnEnable :
    (∀ tima ∈ [0x00#8, 0xC2#8], ¬(timerState 0 tima 0 0 0).enabled) ∧
    (0x05#8).getLsbD State.reset.platform.tacEnBit.val = true ∧
    (0 + 1000 + 4) / timaPeriod (timerControl State.reset.platform 0x05).clockSelect = 62 ∧
    62 < 256 - (0x00#8).toNat ∧ 62 = 256 - (0xC2#8).toNat := by decide

/-- ModuloExtremes: both reload values, one tick due; for `TMA` = 0 the wrap reached and just not reached. -/
theorem witness_ModuloExtremes :
    (timerState 0x05 0xFF 0xFF 0 15).enabled ∧ 0 < (15 + 1) / (timerState 0x05 0xFF 0xFF 0 15).period ∧
    (∀ tima ∈ [0xFE#8, 0xFF#8], (timerState 0x05 tima 0x00 0 15).enabled ∧ (timerState 0x05 tima 0x00 0 15).rf.TMA = 0) ∧
    (0xFE#8).toNat + 1 < 256 ∧ 256 ≤ (0xFF#8).toNat + 1 := by decide

theorem witness_InterruptSettingIsIdempotent :
    (timerState 0x05 0xFF 0x10 0x04 15).irqTimer = true ∧ (padState 0x10 0 Buttons.released).irqJoypad = true := by decide

/-- InterruptsRaisedOnlyByTheirSources: each bit really rises in its own operation. -/
theorem witness_InterruptsRaisedOnlyByTheirSources :
    nearOverflow.platform.Legal ∧
    (∃ t, exec (.step 1) nearOverflow = .next t ∧ Instr.step 1 ≠ .reset ∧ (∀ v, Instr.step 1 ≠ .wrIf v) ∧
      nearOverflow.irqTimer = false ∧ t.irqTimer = true) ∧
    (∃ t, exec (.press .a) nearOverflow = .next t ∧ Instr.press .a ≠ .reset ∧ (∀ v, Instr.press .a ≠ .wrIf v) ∧
      nearOverflow.irqJoypad = false ∧ t.irqJoypad = true) :=
  ⟨by decide, ⟨_, rfl, nofun, nofun, by decide, by decide⟩, ⟨_, rfl, nofun, nofun, by decide, by decide⟩⟩

theorem witness_FlagBitsClearedOnlyByWriteOrReset :
    ∃ t, exec (.step 16) (timerState 0x05 0xFF 0x10 0xE1 0) = .next t ∧ Instr.step 16 ≠ .reset ∧
      (∀ v, Instr.step 16 ≠ .wrIf v) ∧ (timerState 0x05 0xFF 0x10 0xE1 0).rf.IF.getLsbD 0 = true :=
  ⟨_, rfl, nofun, nofun, by decide⟩

/-- StateChangedOnlyByOwner: RD.IF is none of the owners, so it meets the hypotheses of all six clauses. -/
theorem witness_StateChangedOnlyByOwner :
    ∃ t, exec .rdIf nearOverflow = .next t ∧ Instr.rdIf ≠ .reset ∧ (∀ n, Instr.rdIf ≠ .step n) ∧
      (∀ v, Instr.rdIf ≠ .wrTma v) ∧ (∀ v, Instr.rdIf ≠ .wrTac v) ∧ (∀ v, Instr.rdIf ≠ .wrJoyp v) ∧
      (∀ v, Instr.rdIf ≠ .wrIf v) ∧ (∀ x, Instr.rdIf ≠ .press x) ∧ (∀ x, Instr.rdIf ≠ .release x) :=
  ⟨_, rfl, nofun, nofun, nofun, nofun, nofun, nofun, nofun, nofun⟩

theorem witness_RaisedInterruptSeenByNextRead :
    flagOf nearOverflow.btn .a = false ∧ nearOverflow.enabled ∧
    nearOverflow.rf.TIMA.toNat + (nearOverflow.timaAcc + 1) / nearOverflow.period = 256 := by decide

/-- Program P6's start. -/
theorem witness_ReadModifyWriteOfFlagLosesPress :
    flagOf (padState 0x04 0 Buttons.released).btn .a = false ∧ (padState 0x04 0 Buttons.released).irqJoypad = false := by
  decide

theorem witness_PressSetsFlagAndRaisesOnEdge :
    flagOf (padState 0 0 { Buttons.released with down := true }).btn .down = true ∧
    flagOf (padState 0 0 { Buttons.released with down := true }).btn .a = false ∧ Button.down ≠ .a := by decide

/-- LastPressOrReleaseWins: another button's operations and a STEP stand after the one named. -/
theorem witness_LastPressOrReleaseWins :
    ∃ t u v, Instr.press .a ∉ [Instr.press .b, .step 1] ∧ Instr.release .a ∉ [Instr.press .b, .step 1] ∧
      Instr.reset ∉ [Instr.press .b, .step 1] ∧
      execAll ([.release .a] ++ .press .a :: [.press .b, .step 1]) nearOverflow = .next t ∧
      execAll ([.press .a] ++ .release .a :: [.press .b, .step 1]) nearOverflow = .next u ∧
      execAll [.press .b, .step 1] nearOverflow = .next v :=
  ⟨_, _, _, by decide, by decide, by decide, rfl, rfl, rfl⟩

theorem witness_DifferentButtonsCommute : Button.a ≠ .right := by decide

theorem witness_PressAndReleaseLeaveOnlyInterrupt : flagOf State.reset.btn .up = false := by decide

theorem witness_SelectionOfNoneAndBoth :
    ((padState 0 0x30 Buttons.released).rf.JOYP.getLsbD 5 = true ∧
      (padState 0 0x30 Buttons.released).rf.JOYP.getLsbD 4 = true) ∧
    ((padState 0 0x00 Buttons.released).rf.JOYP.getLsbD 5 = false ∧
      (padState 0 0x00 Buttons.released).rf.JOYP.getLsbD 4 = false) := by decide

theorem witness_ReadOfDivider :
    ∃ t u, (∀ n, Instr.step n ∉ [Instr.wrTac 0x05, .press .a]) ∧ Instr.reset ∉ [Instr.wrTac 0x05, .press .a] ∧
      execAll (.rdDiv :: [.wrTac 0x05, .press .a]) nearOverflow = .next t ∧ exec .rdDiv t = .next u :=
  ⟨_, _, by intro n; simp, by decide, rfl, rfl⟩

theorem witness_ReadOfTimerCounter :
    nearOverflow.enabled ∧ nearOverflow.rf.TIMA = 0xFF ∧ (nearOverflow.timaAcc + 1) / nearOverflow.period = 1 := by decide

theorem witness_WriteOfModulo :
    nearOverflow.enabled ∧ nearOverflow.rf.TIMA = 0xFF ∧ (nearOverflow.timaAcc + 1) / nearOverflow.period = 1 ∧
      nearOverflow.rf.TMA ≠ 0x80 := by decide

/-- WriteOfControl: a byte with the enable bit set and one with it clear. -/
theorem witness_WriteOfControl :
    (0x05#8).getLsbD nearOverflow.platform.tacEnBit.val = true ∧
    (0x01#8).getLsbD nearOverflow.platform.tacEnBit.val = false := by decide

theorem witness_ReadReturnsLatestWrite :
    ∃ t, (∀ u, Instr.wr .TMA u ∉ [Instr.step 1, .wrTac 0]) ∧ Instr.reset ∉ [Instr.step 1, .wrTac 0] ∧
      execAll (Instr.wr .TMA 0x80 :: ([.step 1, .wrTac 0] ++ [Instr.rd .TMA])) nearOverflow = .next t :=
  ⟨_, by intro u; simp [Instr.wr], by decide, rfl⟩

theorem witness_PressAfterResetInterrupts : Button.b ≠ .a := by decide

theorem witness_PressIgnoresSelection : flagOf nearOverflow.btn .a = false ∧ nearOverflow.rf.JOYP ≠ 0x00 := by decide

theorem witness_ReleaseClearsFlagOnly : Button.right ≠ .a ∧ flagOf nearOverflow.btn .a = false := by decide

theorem witness_ReadsHaveNoSideEffects : Reg.TIMA ≠ .JOYP := by decide

theorem witness_WritesStoreOneByte : Reg.IF ∈ [Reg.TMA, .TAC, .IF, .JOYP] ∧ Reg.TIMA ≠ .IF := by decide

theorem witness_DecodeAfterEncode : (Instr.step 0xFFFFFF).wellFormed = true ∧ (Instr.wrDiv 0xFF).wellFormed = true := by
  decide

theorem witness_EncodeAfterDecode : decode 0x10FFFFFF#32 = .ok (.step 0xFFFFFF) := by decide

theorem witness_PlatformAddressesNameTheirCells :
    defaultPlatform.Legal ∧ addrOf defaultPlatform.addr .IF = 0xFF0F ∧ cellAt defaultPlatform.addr 0xFF0E = none := by
  decide

theorem witness_PseudoOperationsDoWhatTheyName :
    State.reset.platform.Legal ∧ (Pseudo.timerOn 1).expand State.reset.platform = .wrTac 0x05 := by decide

end Sys2Proof.Tests
end

section
/-! The queue: what a fetch answers and what a step does with the word it takes (00_scope.md R7, R8;
30_encoding.md R66). One equation per shape of the queue and per answer of the decoder, for later proofs to cite. -/

namespace Sys2Proof.Machine

theorem State.fetch_of_requests_nil {s : State} (h : s.requests = []) : s.fetch = none := by
  simp only [State.fetch, h]

theorem State.fetch_of_requests_cons {s : State} {w : TxWord} {ws : List TxWord} (h : s.requests = w :: ws) :
    s.fetch = some (w, s.putRequests ws) := by
  simp only [State.fetch, h]

theorem step_of_requests_nil {s : State} (h : s.requests = []) : step s = .next s := by
  simp only [step, State.fetch_of_requests_nil h]

theorem step_of_decode_ok {s : State} {w : TxWord} {ws : List TxWord} {i : Instr}
    (hq : s.requests = w :: ws) (hd : decode w = .ok i) : step s = exec i (s.putRequests ws) := by
  simp only [step, State.fetch_of_requests_cons hq, hd]

theorem step_of_decode_error {s : State} {w : TxWord} {ws : List TxWord} {e : DecodeError}
    (hq : s.requests = w :: ws) (hd : decode w = .error e) : step s = .refused (.illegalWord e) := by
  simp only [step, State.fetch_of_requests_cons hq, hd]

/-- Settles O7: the three clauses are the three ways a step can go, by the queue and then by the decoder. -/
theorem stepRunsOldestRequest : Obligations.StepRunsOldestRequest := by
  unfold Obligations.StepRunsOldestRequest
  refine ⟨?decodes, ?illegal, ?empty⟩
  case decodes =>
    intro s w ws i hq hd
    exact step_of_decode_ok hq hd
  case illegal =>
    intro s w ws e hq hd
    exact step_of_decode_error hq hd
  case empty =>
    intro s hq
    exact step_of_requests_nil hq

end Sys2Proof.Machine
end

section
/-! What an operation does when it answers a next state, one form per operation. Invariants and frames of `exec` split on
this and do not unfold the meanings. -/

namespace Sys2Proof.Machine

/-- The byte a read of cell `r` returns: the stored one, but for `JOYP`, whose read is computed (20_memory.md R45,
41_joypad.md R102). -/
def readByte (s : State) : Reg → Byte
  | .JOYP => joypRead s
  | r => cellOf s.rf r

theorem exec_rd (r : Reg) (s : State) : exec (Instr.rd r) s = .next { s with response := some (readByte s r) } := by
  cases r <;> rfl

/-- `Effect s i t`: operation `i` takes state `s` to state `t`. `WR.DIV` and `WR.TIMA` have no form, since they answer no
state (42_regfile_bus.md R129, R130). -/
inductive Effect (s : State) : Instr → State → Prop where
  | stepEnabled (n : Nat) (h : s.enabled) : Effect s (.step n) { s with
      rf := (tick s.platform)^[(s.timaAcc + n) / s.period] (wrap^[(s.divAcc + n) / 256] s.rf)
      divAcc := (s.divAcc + n) % 256
      timaAcc := (s.timaAcc + n) % s.period
      response := none }
  | stepDisabled (n : Nat) (h : ¬s.enabled) : Effect s (.step n) { s with
      rf := wrap^[(s.divAcc + n) / 256] s.rf
      divAcc := (s.divAcc + n) % 256
      timaAcc := s.timaAcc + n
      response := none }
  | pressReleased (x : Button) (h : flagOf s.btn x = false) : Effect s (.press x) { s with
      rf := setIrq (joypadBit s.platform) s.rf
      btn := setFlag s.btn x true
      response := none }
  | pressPressed (x : Button) (h : flagOf s.btn x = true) : Effect s (.press x) { s with response := none }
  | release (x : Button) : Effect s (.release x) { s with btn := setFlag s.btn x false, response := none }
  | rd (r : Reg) : Effect s (Instr.rd r) { s with response := some (readByte s r) }
  | wrTma (v : Byte) : Effect s (.wrTma v) { s with rf := { s.rf with TMA := v }, response := none }
  | wrTac (v : Byte) : Effect s (.wrTac v) { s with rf := { s.rf with TAC := v }, response := none }
  | wrIf (v : Byte) : Effect s (.wrIf v) { s with rf := { s.rf with IF := v }, response := none }
  | wrJoyp (v : Byte) : Effect s (.wrJoyp v) { s with rf := { s.rf with JOYP := v }, response := none }
  | reset : Effect s .reset { s with
      rf := s.platform.rfReset
      divAcc := 0
      timaAcc := 0
      btn := Buttons.released
      response := none }

/-- What an operation can do when it answers a next state. -/
theorem effect_of_exec {i : Instr} {s t : State} (h : exec i s = .next t) : Effect s i t := by
  cases i with
  | step n =>
    by_cases he : s.enabled
    · cases (execStep_of_enabled n he).symm.trans h
      exact .stepEnabled n he
    · cases (execStep_of_not_enabled n he).symm.trans h
      exact .stepDisabled n he
  | press x =>
    cases hx : flagOf s.btn x with
    | false =>
      cases (execPress_of_released hx).symm.trans h
      exact .pressReleased x hx
    | true =>
      cases (execPress_of_pressed hx).symm.trans h
      exact .pressPressed x hx
  | release x => cases h; exact .release x
  | rdDiv => cases h; exact .rd .DIV
  | rdTima => cases h; exact .rd .TIMA
  | rdTma => cases h; exact .rd .TMA
  | rdTac => cases h; exact .rd .TAC
  | rdIf => cases h; exact .rd .IF
  | rdJoyp => cases h; exact .rd .JOYP
  | wrDiv v => cases h
  | wrTima v => cases h
  | wrTma v => cases h; exact .wrTma v
  | wrTac v => cases h; exact .wrTac v
  | wrIf v => cases h; exact .wrIf v
  | wrJoyp v => cases h; exact .wrJoyp v
  | reset => cases h; exact .reset

end Sys2Proof.Machine
end

section
/-! Well-formedness (10_state.md R30): the created block has it, every operation and so every step keeps it, and the
bounds of the accumulators (R22) follow. -/

namespace Sys2Proof.Machine

/-- Settles O6: no operation's form changes either field. -/
theorem operationsKeepPlatformAndRequests : Obligations.OperationsKeepPlatformAndRequests := by
  intro i s t h
  cases effect_of_exec h <;> exact ⟨rfl, rfl⟩

theorem exec_platform {i : Instr} {s t : State} (h : exec i s = .next t) : t.platform = s.platform :=
  (operationsKeepPlatformAndRequests i s t h).1

/-- Only STEP and RESET write `div_acc`: the one leaves a remainder of 256, the other 0. -/
theorem exec_divAcc_lt {i : Instr} {s t : State} (hs : s.divAcc < 256) (h : exec i s = .next t) : t.divAcc < 256 := by
  cases effect_of_exec h with
  | stepEnabled n _ => exact Nat.mod_lt _ (by decide)
  | stepDisabled n _ => exact Nat.mod_lt _ (by decide)
  | reset => exact Nat.zero_lt_succ _
  | _ => exact hs

theorem exec_inv {i : Instr} {s t : State} (hs : s.Inv) (h : exec i s = .next t) : t.Inv where
  divAcc_lt := exec_divAcc_lt hs.divAcc_lt h
  legal := exec_platform h ▸ hs.legal

theorem State.Inv.putRequests {s : State} (hs : s.Inv) (ws : List TxWord) : (s.putRequests ws).Inv :=
  ⟨hs.divAcc_lt, hs.legal⟩

theorem step_inv {s t : State} (hs : s.Inv) (h : step s = .next t) : t.Inv := by
  obtain ⟨-, rfl⟩ | ⟨w, ws, i, -, -, hexec⟩ := step_cases h
  · exact hs
  · exact exec_inv (hs.putRequests ws) hexec

/-- Settles O4: the step runs one operation, after the queue alone has changed, or none. -/
theorem stepKeepsWellFormed : Obligations.StepKeepsWellFormed :=
  fun _ _ => step_inv

theorem State.created_inv {p : Platform} (hp : p.Legal) : (State.created p).Inv :=
  ⟨Nat.zero_lt_succ _, hp⟩

/-- Settles O1: the reset state is the created block of the default platform. -/
theorem createdBlockIsWellFormed : Obligations.CreatedBlockIsWellFormed :=
  ⟨fun _ => State.created_inv, State.created_inv (by decide)⟩

theorem Reachable.inv {s : State} (h : Reachable s) : s.Inv := by
  induction h with
  | created p legal => exact State.created_inv legal
  | issued s w _ ih => exact ih.putRequests _
  | stepped s t _ hs ih => exact step_inv ih hs

/-- With no request pending, an agent can issue any operation that has a word, and the block runs it next. -/
theorem Reachable.issue_exec {s t : State} {w : TxWord} {i : Instr} (h : Reachable s) (hq : s.requests = [])
    (hd : decode w = .ok i) (he : exec i s = .next t) : Reachable t := by
  refine .stepped _ _ (.issued s w h) ?_
  have hs : (s.putRequests [w]).putRequests [] = s := by
    rw [← hq]
    rfl
  rw [hq, List.nil_append, step_of_decode_ok rfl hd, hs, he]

/-- The reset state after `WR.TAC 0x04`: the timer enabled with the longest period, 1024. -/
def slowTimer : State := { State.reset with rf := { State.reset.rf with TAC := 0x04 } }

/-- `slowTimer` after `STEP 16`: less than its own period is held, and as much as the shortest period, 16. -/
def slowTimerFed : State := { slowTimer with divAcc := 16, timaAcc := 16 }

theorem reset_reachable : Reachable State.reset := .created defaultPlatform (by decide)

theorem slowTimer_reachable : Reachable slowTimer :=
  reset_reachable.issue_exec (w := 0x50000304#32) (i := .wrTac 0x04) rfl (by decide) rfl

theorem slowTimerFed_reachable : Reachable slowTimerFed :=
  slowTimer_reachable.issue_exec (w := 0x10000010#32) (i := .step 16) rfl (by decide) rfl

theorem exec_step_timaAcc_lt_period (n : Nat) {s : State} (h : s.enabled) :
    ∃ t, exec (.step n) s = .next t ∧ t.timaAcc < s.period :=
  ⟨_, execStep_of_enabled n h, Nat.mod_lt _ s.period_pos⟩

/-- Settles O5: the bound of `div_acc` is part of the invariant of the reachable states. Out of reset, where the timer is
disabled with period 1024, STEP 1024 leaves 1024 in `tima_acc`; with 16 held, `WR.TAC 0x05` goes from period 1024 to 16. -/
theorem accumulatorBounds : Obligations.AccumulatorBounds := by
  refine ⟨?divAcc, ?afterEnabledStep, ?afterDisabledStep, ?afterShorterPeriod⟩
  case divAcc => exact fun s h => h.inv.divAcc_lt
  case afterEnabledStep => exact fun s n h => exec_step_timaAcc_lt_period n h
  case afterDisabledStep =>
    exact ⟨State.reset, 1024, _, reset_reachable, by decide, rfl, by decide⟩
  case afterShorterPeriod =>
    exact ⟨slowTimerFed, 0x05, _, slowTimerFed_reachable, by decide, by decide, rfl, by decide, by decide, by decide⟩

end Sys2Proof.Machine
end

section
/-! What of `TAC` a STEP reads (10_state.md R16, R17): the period its clock-select bits name, and nothing of its five
other bits. -/

namespace Sys2Proof.Machine

/-- `TIMA_PERIOD` as the table it is (10_state.md R17). -/
theorem timaPeriod_clockSelectOf (cs : BitVec 2) :
    ([1024, 16, 64, 256] : List Nat)[cs.toNat]? = some (timaPeriod (clockSelectOf cs)) := by
  revert cs
  decide

/-- The period as a table entry indexed by the clock-select bits of the stored byte. -/
theorem State.period_eq_table (s : State) :
    ([1024, 16, 64, 256] : List Nat)[s.rf.TAC.toNat / 2 ^ s.platform.tacCsLo.val % 4]? = some s.period := by
  have h := timaPeriod_clockSelectOf (s.rf.TAC.extractLsb' s.platform.tacCsLo.val 2)
  rwa [BitVec.extractLsb'_toNat, Nat.shiftRight_eq_div_pow] at h

theorem tick_of_full (p : Platform) {rf : RegFile} (h : rf.TIMA = 0xFF) :
    tick p rf = setIrq (timerBit p) { rf with TIMA := rf.TMA } :=
  if_pos h

theorem tick_of_not_full (p : Platform) {rf : RegFile} (h : rf.TIMA ≠ 0xFF) :
    tick p rf = { rf with TIMA := rf.TIMA + 1 } :=
  if_neg h

/-- Ticks that do not overflow `TIMA` count up and touch nothing else (40_timer.md R85). -/
theorem tick_iterate_of_no_overflow (p : Platform) (k : Nat) (rf : RegFile) (h : rf.TIMA.toNat + k < 256) :
    (tick p)^[k] rf = { rf with TIMA := rf.TIMA + BitVec.ofNat 8 k } := by
  induction k with
  | zero => simp
  | succ k ih =>
    have hcount : (rf.TIMA + BitVec.ofNat 8 k).toNat = rf.TIMA.toNat + k := by
      rw [BitVec.toNat_add, BitVec.toNat_ofNat]
      omega
    have hne : rf.TIMA + BitVec.ofNat 8 k ≠ 0xFF := fun e => by
      rw [e] at hcount
      simp at hcount
      omega
    rw [Function.iterate_succ_apply', ih (by omega), tick_of_not_full p hne, BitVec.add_assoc, BitVec.ofNat_add]
    rfl

theorem tick_iterate_TIMA_toNat (p : Platform) {k : Nat} {rf : RegFile} (h : rf.TIMA.toNat + k < 256) :
    ((tick p)^[k] rf).TIMA.toNat = rf.TIMA.toNat + k := by
  rw [tick_iterate_of_no_overflow p k rf h, BitVec.toNat_add, BitVec.toNat_ofNat]
  omega

/-- Settles O14: an enabled STEP takes whole periods out of `tima_acc`, and the period is the table's entry. -/
theorem clockSelectChoosesPeriod : Obligations.ClockSelectChoosesPeriod := by
  intro s n he
  refine ⟨_, s.period, s.period_eq_table, s.period_pos, execStep_of_enabled n he, rfl, fun hlt => ?_⟩
  have hcount := tick_iterate_TIMA_toNat s.platform (rf := wrap^[(s.divAcc + n) / 256] s.rf)
    (by rwa [wrap_iterate_TIMA])
  rwa [wrap_iterate_TIMA] at hcount

theorem wrap_setCell_TAC (v : Byte) (rf : RegFile) : wrap (setCell rf .TAC v) = setCell (wrap rf) .TAC v := rfl

theorem tick_setCell_TAC (p : Platform) (v : Byte) (rf : RegFile) :
    tick p (setCell rf .TAC v) = setCell (tick p rf) .TAC v := by
  by_cases h : rf.TIMA = 0xFF
  · rw [tick_of_full p h, tick_of_full p (rf := setCell rf .TAC v) h]
    rfl
  · rw [tick_of_not_full p h, tick_of_not_full p (rf := setCell rf .TAC v) h]
    rfl

theorem wrap_iterate_setCell_TAC (v : Byte) (k : Nat) (rf : RegFile) :
    wrap^[k] (setCell rf .TAC v) = setCell (wrap^[k] rf) .TAC v :=
  Function.Commute.iterate_left (g := (setCell · .TAC v)) (wrap_setCell_TAC v) k rf

theorem tick_iterate_setCell_TAC (p : Platform) (v : Byte) (k : Nat) (rf : RegFile) :
    (tick p)^[k] (setCell rf .TAC v) = setCell ((tick p)^[k] rf) .TAC v :=
  Function.Commute.iterate_left (g := (setCell · .TAC v)) (tick_setCell_TAC p v) k rf

/-- Only the enable bit and the two clock-select bits of the byte are decoded (10_state.md R16). -/
theorem timerControl_congr {p : Platform} {v w : Byte} (hen : v.getLsbD p.tacEnBit.val = w.getLsbD p.tacEnBit.val)
    (hlo : v.getLsbD p.tacCsLo.val = w.getLsbD p.tacCsLo.val)
    (hhi : v.getLsbD (p.tacCsLo.val + 1) = w.getLsbD (p.tacCsLo.val + 1)) : timerControl p v = timerControl p w := by
  have hcs : v.extractLsb' p.tacCsLo.val 2 = w.extractLsb' p.tacCsLo.val 2 := by
    apply BitVec.eq_of_getLsbD_eq
    intro j hj
    obtain rfl | rfl : j = 0 ∨ j = 1 := by omega
    · simpa using hlo
    · simpa using hhi
  rw [timerControl, timerControl, hen, hcs]

/-- `s` with `v` in `TAC`. -/
def State.withTac (v : Byte) (s : State) : State := { s with rf := setCell s.rf .TAC v }

/-- A STEP commutes with a change of `TAC` that its decoding does not see. -/
theorem execStep_withTac {s t : State} {v : Byte} {n : Nat}
    (hv : timerControl s.platform v = timerControl s.platform s.rf.TAC) (h : execStep n s = .next t) :
    execStep n (s.withTac v) = .next (t.withTac v) := by
  have hperiod : (s.withTac v).period = s.period :=
    congrArg (fun c : TimerControl => timaPeriod c.clockSelect) hv
  have henabled : (s.withTac v).enabled ↔ s.enabled :=
    iff_of_eq (congrArg (fun c : TimerControl => c.enabled = true) hv)
  by_cases he : s.enabled
  · cases (execStep_of_enabled n he).symm.trans h
    rw [execStep_of_enabled n (henabled.mpr he), hperiod]
    simp only [State.withTac, wrap_iterate_setCell_TAC, tick_iterate_setCell_TAC]
  · cases (execStep_of_not_enabled n he).symm.trans h
    rw [execStep_of_not_enabled n (mt henabled.mp he)]
    simp only [State.withTac, wrap_iterate_setCell_TAC]

/-- Settles O21: the byte `v` decodes as the stored one does. -/
theorem ignoredTacBitsHaveNoEffect : Obligations.IgnoredTacBitsHaveNoEffect := by
  intro s v n hen hlo hhi
  obtain ⟨t, ht⟩ : ∃ t, execStep n s = .next t := ⟨_, rfl⟩
  exact ⟨t, ht, execStep_withTac (timerControl_congr hen hlo hhi) ht⟩

end Sys2Proof.Machine
end

section
/-! Who changes what (10_state.md R18, R23, R26): the bits of `IF`, and every other piece of state. -/

namespace Sys2Proof.Machine

theorem getLsbD_one_shiftLeft (b : Fin 8) (j : Nat) : (1#8 <<< b.val).getLsbD j = decide (j = b.val) := by
  rw [← BitVec.twoPow_eq, BitVec.getLsbD_twoPow]
  simp [b.isLt, eq_comm]

/-- Raising an interrupt keeps every set bit. -/
theorem getLsbD_or_of_left {v : Byte} (m : Byte) {j : Nat} (h : v.getLsbD j = true) : (v ||| m).getLsbD j = true := by
  simp [h]

/-- Raising an interrupt keeps every bit that is not its own. -/
theorem getLsbD_or_one_shiftLeft_of_ne (v : Byte) {b : Fin 8} {j : Nat} (h : j ≠ b.val) :
    (v ||| (1#8 <<< b.val)).getLsbD j = v.getLsbD j := by
  rw [BitVec.getLsbD_or, getLsbD_one_shiftLeft, decide_eq_false h, Bool.or_false]

/-- Ticks change `IF` by raising the timer interrupt, if at all. -/
theorem tick_iterate_IF (p : Platform) (k : Nat) (rf : RegFile) :
    ((tick p)^[k] rf).IF = rf.IF ∨ ((tick p)^[k] rf).IF = rf.IF ||| timerBit p := by
  induction k generalizing rf with
  | zero => exact .inl rfl
  | succ k ih =>
    have htick : (tick p rf).IF = rf.IF ∨ (tick p rf).IF = rf.IF ||| timerBit p := by
      by_cases hfull : rf.TIMA = 0xFF
      · exact .inr (by rw [tick_of_full p hfull]; rfl)
      · exact .inl (by rw [tick_of_not_full p hfull])
    rw [Function.iterate_succ_apply]
    rcases ih (tick p rf), htick with ⟨h | h, g | g⟩ <;> simp [h, g, BitVec.or_assoc]

/-- WR.IF and RESET apart, an operation changes `IF` by raising one of the block's two interrupts, if at all. -/
theorem exec_IF {i : Instr} {s t : State} (h : exec i s = .next t) (hreset : i ≠ .reset) (hwr : ∀ v, i ≠ .wrIf v) :
    t.rf.IF = s.rf.IF ∨ t.rf.IF = s.rf.IF ||| timerBit s.platform ∨ t.rf.IF = s.rf.IF ||| joypadBit s.platform := by
  cases effect_of_exec h with
  | stepEnabled n _ =>
    have hticks := tick_iterate_IF s.platform ((s.timaAcc + n) / s.period) (wrap^[(s.divAcc + n) / 256] s.rf)
    rw [wrap_iterate_IF] at hticks
    exact hticks.imp_right .inl
  | stepDisabled n _ => exact .inl (wrap_iterate_IF _ _)
  | pressReleased x _ => exact .inr (.inr rfl)
  | wrIf v => exact absurd rfl (hwr v)
  | reset => exact absurd rfl hreset
  | _ => exact .inl rfl

/-- Settles O26: raising an interrupt keeps the set bits and the foreign ones. -/
theorem flagBitsClearedOnlyByWriteOrReset : Obligations.FlagBitsClearedOnlyByWriteOrReset := by
  intro i s t h hreset hwr
  rcases exec_IF h hreset hwr with hIF | hIF | hIF <;> rw [hIF]
  case inl => exact ⟨fun _ => id, fun _ _ _ => rfl⟩
  case inr.inl => exact ⟨fun _ => getLsbD_or_of_left _, fun _ htimer _ => getLsbD_or_one_shiftLeft_of_ne _ htimer⟩
  case inr.inr => exact ⟨fun _ => getLsbD_or_of_left _, fun _ _ hjoypad => getLsbD_or_one_shiftLeft_of_ne _ hjoypad⟩

/-- Settles O27: each form of `Effect` shows the fields it writes; an owner's own clause is empty for it. -/
theorem stateChangedOnlyByOwner : Obligations.StateChangedOnlyByOwner := by
  intro i s t h hreset
  cases effect_of_exec h with
  | pressReleased x _ => simp [setIrq]
  | reset => exact absurd rfl hreset
  | _ => simp

end Sys2Proof.Machine
end

section
/-! Sequences of operations: how they split, what they keep, and the button flags after them (10_state.md R25). -/

namespace Sys2Proof.Machine

theorem execAll_cons_of_next {i : Instr} {s u : State} (h : exec i s = .next u) (is : List Instr) :
    execAll (i :: is) s = execAll is u := by
  simp only [execAll, h]

/-- A sequence that completes completes its first operation and then the others. -/
theorem execAll_cons_eq_next {i : Instr} {is : List Instr} {s t : State} (h : execAll (i :: is) s = .next t) :
    ∃ u, exec i s = .next u ∧ execAll is u = .next t := by
  rw [execAll] at h
  split at h
  · rename_i u hu
    exact ⟨u, hu, h⟩
  · cases h
  · cases h

theorem execAll_append_eq_next {is js : List Instr} {s t : State} (h : execAll (is ++ js) s = .next t) :
    ∃ u, execAll is s = .next u ∧ execAll js u = .next t := by
  induction is generalizing s with
  | nil => exact ⟨s, rfl, h⟩
  | cons i is ih =>
    obtain ⟨r, hr, hrest⟩ := execAll_cons_eq_next h
    obtain ⟨u, hu, hjs⟩ := ih hrest
    exact ⟨u, (execAll_cons_of_next hr is).trans hu, hjs⟩

/-- What each operation of a sequence keeps, the sequence keeps. -/
theorem execAll_keeps {α : Type} (f : State → α) {is : List Instr} {s t : State}
    (hkeep : ∀ i ∈ is, ∀ u v, exec i u = .next v → f v = f u) (h : execAll is s = .next t) : f t = f s := by
  induction is generalizing s with
  | nil =>
    cases h
    rfl
  | cons i is ih =>
    obtain ⟨u, hu, hrest⟩ := execAll_cons_eq_next h
    rw [List.forall_mem_cons] at hkeep
    exact (ih hkeep.2 hrest).trans (hkeep.1 s u hu)

/-- Only the button's own PRESS and RELEASE, and RESET, change its flag (10_state.md R23, R24). -/
theorem exec_flagOf {i : Instr} {s t : State} {x : Button} (hpress : i ≠ .press x) (hrelease : i ≠ .release x)
    (hreset : i ≠ .reset) (h : exec i s = .next t) : flagOf t.btn x = flagOf s.btn x := by
  cases effect_of_exec h with
  | pressReleased y _ => exact flagOf_setFlag_of_ne _ _ fun e => hpress (congrArg _ e.symm)
  | release y => exact flagOf_setFlag_of_ne _ _ fun e => hrelease (congrArg _ e.symm)
  | reset => exact absurd rfl hreset
  | _ => rfl

theorem execAll_flagOf {is : List Instr} {s t : State} {x : Button} (hpress : Instr.press x ∉ is)
    (hrelease : Instr.release x ∉ is) (hreset : Instr.reset ∉ is) (h : execAll is s = .next t) :
    flagOf t.btn x = flagOf s.btn x :=
  execAll_keeps (fun u => flagOf u.btn x) (fun _ hi _ _ => exec_flagOf (ne_of_mem_of_not_mem hi hpress)
    (ne_of_mem_of_not_mem hi hrelease) (ne_of_mem_of_not_mem hi hreset)) h

theorem exec_press_flagOf {s t : State} {x : Button} (h : exec (.press x) s = .next t) : flagOf t.btn x = true := by
  cases h
  exact flagOf_setFlag_self _ _ _

theorem exec_release_flagOf {s t : State} {x : Button} (h : exec (.release x) s = .next t) :
    flagOf t.btn x = false := by
  cases h
  exact flagOf_setFlag_self _ _ _

/-- A sequence that completes completes the operation named in it, and from there the others. -/
theorem execAll_append_cons_eq_next {is js : List Instr} {i : Instr} {s t : State}
    (h : execAll (is ++ i :: js) s = .next t) : ∃ u v, exec i u = .next v ∧ execAll js v = .next t := by
  obtain ⟨u, -, hu⟩ := execAll_append_eq_next h
  exact ⟨u, execAll_cons_eq_next hu⟩

/-- Settles O33: the operation named sets the flag, and the operations after it keep it. -/
theorem lastPressOrReleaseWins : Obligations.LastPressOrReleaseWins := by
  intro x pre post s t hpress hrelease hreset
  refine ⟨?press, ?release, ?neither⟩
  case press =>
    intro h
    obtain ⟨u, v, hv, hpost⟩ := execAll_append_cons_eq_next h
    exact (execAll_flagOf hpress hrelease hreset hpost).trans (exec_press_flagOf hv)
  case release =>
    intro h
    obtain ⟨u, v, hv, hpost⟩ := execAll_append_cons_eq_next h
    exact (execAll_flagOf hpress hrelease hreset hpost).trans (exec_release_flagOf hv)
  case neither => exact execAll_flagOf hpress hrelease hreset

end Sys2Proof.Machine
end

section
/-! Interrupt setting is idempotent (20_memory.md R47): an or-ed bit that is set already changes nothing. -/

namespace Sys2Proof.Machine

theorem or_one_shiftLeft_of_getLsbD {v : Byte} {b : Fin 8} (h : v.getLsbD b.val = true) :
    v ||| (1#8 <<< b.val) = v := by
  apply BitVec.eq_of_getLsbD_eq
  intro j _
  by_cases hj : j = b.val
  · rw [hj, h, getLsbD_or_of_left _ h]
  · exact getLsbD_or_one_shiftLeft_of_ne v hj

/-- A pending timer interrupt absorbs another (10_state.md R18). -/
theorem State.irqTimer_or_timerBit {s : State} (h : s.irqTimer = true) :
    s.rf.IF ||| timerBit s.platform = s.rf.IF :=
  or_one_shiftLeft_of_getLsbD h

theorem State.irqJoypad_or_joypadBit {s : State} (h : s.irqJoypad = true) :
    s.rf.IF ||| joypadBit s.platform = s.rf.IF :=
  or_one_shiftLeft_of_getLsbD h

/-- A STEP raises the timer interrupt or leaves `IF` alone. -/
theorem exec_step_IF (n : Nat) (s : State) : ∃ t, exec (.step n) s = .next t ∧
    (t.rf.IF = s.rf.IF ∨ t.rf.IF = s.rf.IF ||| timerBit s.platform) := by
  by_cases he : s.enabled
  · refine ⟨_, execStep_of_enabled n he, ?_⟩
    simpa using tick_iterate_IF s.platform ((s.timaAcc + n) / s.period) (wrap^[(s.divAcc + n) / 256] s.rf)
  · exact ⟨_, execStep_of_not_enabled n he, .inl (wrap_iterate_IF _ _)⟩

/-- A PRESS raises the joypad interrupt or leaves `IF` alone. -/
theorem exec_press_IF (x : Button) (s : State) : ∃ t, exec (.press x) s = .next t ∧
    (t.rf.IF = s.rf.IF ∨ t.rf.IF = s.rf.IF ||| joypadBit s.platform) := by
  cases hx : flagOf s.btn x with
  | false => exact ⟨_, execPress_of_released hx, .inr rfl⟩
  | true => exact ⟨_, execPress_of_pressed hx, .inl rfl⟩

/-- Settles O24: the only change of `IF` either operation can make is absorbed by the bit that is set. -/
theorem interruptSettingIsIdempotent : Obligations.InterruptSettingIsIdempotent := by
  refine ⟨?step, ?press⟩
  case step =>
    intro s n hpending
    obtain ⟨t, ht, hIF⟩ := exec_step_IF n s
    rw [State.irqTimer_or_timerBit hpending, or_self] at hIF
    exact ⟨t, ht, hIF⟩
  case press =>
    intro s x hpending
    obtain ⟨t, ht, hIF⟩ := exec_press_IF x s
    rw [State.irqJoypad_or_joypadBit hpending, or_self] at hIF
    exact ⟨t, ht, hIF⟩

end Sys2Proof.Machine
end

section
/-! The bus (20_memory.md R45, R46, R48): a read changes nothing, a write stores one byte, and what `TMA` and `TAC` hold
is what was written last. -/

namespace Sys2Proof.Machine

/-- No read sees the byte the last operation returned. -/
@[simp] theorem readByte_response (v : Option Byte) (s : State) (r : Reg) :
    readByte { s with response := v } r = readByte s r := by
  cases r <;> rfl

/-- Every cell but `JOYP` reads as stored (20_memory.md R45). -/
theorem readByte_of_ne_JOYP (s : State) {r : Reg} (h : r ≠ .JOYP) : readByte s r = cellOf s.rf r := by
  cases r with
  | JOYP => exact absurd rfl h
  | _ => rfl

/-- Settles O41: the second read starts from the state of the first but for the byte returned, which no read sees. -/
theorem readsHaveNoSideEffects : Obligations.ReadsHaveNoSideEffects := by
  intro r s
  refine ⟨readByte s r, exec_rd r s, ?repeated, readByte_of_ne_JOYP s⟩
  rw [execAll_cons_of_next (exec_rd r s), execAll_cons_of_next (exec_rd r _), readByte_response]
  rfl

/-- WR of every cell but the two the spec refuses (20_memory.md R46; 42_regfile_bus.md R129, R130). -/
theorem exec_wr {r : Reg} (hdiv : r ≠ .DIV) (htima : r ≠ .TIMA) (v : Byte) (s : State) :
    exec (Instr.wr r v) s = .next { s with rf := setCell s.rf r v, response := none } := by
  cases r with
  | DIV => exact absurd rfl hdiv
  | TIMA => exact absurd rfl htima
  | _ => rfl

@[simp] theorem setCell_cellOf (rf : RegFile) (r : Reg) : setCell rf r (cellOf rf r) = rf := by
  cases r <;> rfl

/-- Settles O45: a write is `setCell` and nothing else of the block. -/
theorem writesStoreOneByte : Obligations.WritesStoreOneByte := by
  intro r hr v s
  have hwr := exec_wr (ne_of_mem_of_not_mem hr (by decide)) (ne_of_mem_of_not_mem hr (by decide))
  refine ⟨⟨_, hwr v s, cellOf_setCell_self _ _ _, fun q => cellOf_setCell_of_ne _ _, rfl, rfl, rfl, rfl, rfl, rfl⟩, ?same⟩
  rw [hwr, setCell_cellOf]

/-- Only their own WR and RESET change `TMA` and `TAC` (10_state.md R15, R16). -/
theorem exec_cellOf_TMA_TAC {i : Instr} {s t : State} {r : Reg} (hr : r ∈ [Reg.TMA, .TAC])
    (hwr : ∀ u, i ≠ Instr.wr r u) (hreset : i ≠ .reset) (h : exec i s = .next t) : cellOf t.rf r = cellOf s.rf r := by
  obtain ⟨-, hTMA, hTAC, -⟩ := stateChangedOnlyByOwner i s t h hreset
  cases r with
  | TMA => exact hTMA hwr
  | TAC => exact hTAC hwr
  | _ => simp at hr

theorem execAll_cellOf_TMA_TAC {is : List Instr} {s t : State} {r : Reg} (hr : r ∈ [Reg.TMA, .TAC])
    (hwr : ∀ u, Instr.wr r u ∉ is) (hreset : Instr.reset ∉ is) (h : execAll is s = .next t) :
    cellOf t.rf r = cellOf s.rf r :=
  execAll_keeps (fun u => cellOf u.rf r) (fun _ hi _ _ => exec_cellOf_TMA_TAC hr
    (fun u => ne_of_mem_of_not_mem hi (hwr u)) (ne_of_mem_of_not_mem hi hreset)) h

/-- Settles O46: the write stores the byte, the operations between keep it, and the read returns what is stored. -/
theorem readReturnsLatestWrite : Obligations.ReadReturnsLatestWrite := by
  intro r hr v is s t hwr hreset h
  obtain ⟨u, hu, hrest⟩ := execAll_cons_eq_next h
  obtain ⟨w, hw, hread⟩ := execAll_append_eq_next hrest
  have hstored : cellOf u.rf r = v := by
    cases (exec_wr (ne_of_mem_of_not_mem hr (by decide)) (ne_of_mem_of_not_mem hr (by decide)) v s).symm.trans hu
    exact cellOf_setCell_self _ _ _
  have hkept : cellOf w.rf r = cellOf u.rf r := execAll_cellOf_TMA_TAC hr hwr hreset hw
  cases (execAll_cons_of_next (exec_rd r w) []).symm.trans hread
  show some (readByte w r) = some v
  rw [readByte_of_ne_JOYP w (ne_of_mem_of_not_mem hr (by decide)), hkept, hstored]

end Sys2Proof.Machine
end

section
/-! The platform's address decoder (20_memory.md R41; log 22). -/

namespace Sys2Proof.Machine

/-- The decoder's list has every cell. -/
theorem mem_cells (r : Reg) : r ∈ [Reg.DIV, .TIMA, .TMA, .TAC, .IF, .JOYP] := by
  cases r <;> decide

theorem addrOf_injective {m : AddrMap} (h : m.toList.Nodup) : Function.Injective (addrOf m) := fun q r =>
  List.inj_on_of_nodup_map (f := addrOf m) (l := [.DIV, .TIMA, .TMA, .TAC, .IF, .JOYP]) h (mem_cells q) (mem_cells r)

theorem addrOf_of_cellAt {m : AddrMap} {a : Nat} {r : Reg} (h : cellAt m a = some r) : addrOf m r = a := by
  simpa using List.find?_some h

/-- The decoder finds some cell at the address of `r`, and no other cell has that address. -/
theorem cellAt_addrOf {m : AddrMap} (h : m.toList.Nodup) (r : Reg) : cellAt m (addrOf m r) = some r := by
  have hfound : (cellAt m (addrOf m r)).isSome :=
    List.find?_isSome.mpr ⟨r, mem_cells r, beq_self_eq_true _⟩
  obtain ⟨q, hq⟩ := Option.isSome_iff_exists.mp hfound
  rw [hq, addrOf_injective h (addrOf_of_cellAt hq)]

/-- Settles O51: `get` and `set` of an address are the operations of the cell the decoder names. -/
theorem platformAddressesNameTheirCells : Obligations.PlatformAddressesNameTheirCells := by
  rintro p ⟨-, -, -, hdistinct⟩ a r
  refine ⟨⟨addrOf_of_cellAt, ?named⟩, ?accesses⟩
  case named =>
    rintro rfl
    exact cellAt_addrOf hdistinct r
  case accesses =>
    rintro rfl
    simp [getAt, setAt, cellAt_addrOf hdistinct r]

end Sys2Proof.Machine
end

section
/-! The word formats (30_encoding.md R60 to R64): `Carries` says in numbers which word carries which operation. The
encoder makes such words and no others, and the decoder accepts them and no others. -/

namespace Sys2Proof

theorem Button.ofId_eq_iff {k : BitVec 3} {x : Button} : Button.ofId k = x ↔ k = x.id := by
  revert k
  cases x <;> decide

theorem Reg.ofSel_eq_some_iff {k : BitVec 3} {r : Reg} : Reg.ofSel k = some r ↔ k = r.sel := by
  revert k
  cases r <;> decide

/-- A field of a word as a number. -/
theorem toNat_extractLsb' (w : TxWord) (start len : Nat) :
    (w.extractLsb' start len).toNat = w.toNat / 2 ^ start % 2 ^ len := by
  rw [BitVec.extractLsb'_toNat, Nat.shiftRight_eq_div_pow]

theorem extractLsb'_eq_iff {w : TxWord} {start len : Nat} {c : BitVec len} :
    w.extractLsb' start len = c ↔ w.toNat / 2 ^ start % 2 ^ len = c.toNat := by
  rw [← BitVec.toNat_inj, toNat_extractLsb']

/-- Or-ing an operand into the low `k` bits of a word that has them zero is adding it. -/
theorem toNat_or_operand {p : TxWord} {k : Nat} (v : BitVec k) (hk : k ≤ 32) (hp : 2 ^ k ∣ p.toNat) :
    (p ||| v.setWidth 32).toNat = p.toNat + v.toNat := by
  obtain ⟨a, ha⟩ := hp
  rw [BitVec.toNat_or, BitVec.toNat_setWidth_of_le hk, ha, Nat.two_pow_add_eq_or_of_lt v.isLt]

/-- `Carries w i`: the word `w` is operation `i` in its format (30_encoding.md R61), the fields written as a number. -/
inductive Carries (w : TxWord) : Instr → Prop where
  | step (v : BitVec 24) (h : w.toNat = 0x10000000 + v.toNat) : Carries w (.step v.toNat)
  | press (x : Button) (h : w.toNat = 0x20000000 + x.id.toNat) : Carries w (.press x)
  | release (x : Button) (h : w.toNat = 0x30000000 + x.id.toNat) : Carries w (.release x)
  | rd (r : Reg) (h : w.toNat = 0x40000000 + r.sel.toNat * 0x100) : Carries w (Instr.rd r)
  | wr (r : Reg) (v : Byte) (h : w.toNat = 0x50000000 + r.sel.toNat * 0x100 + v.toNat) : Carries w (Instr.wr r v)
  | reset (h : w.toNat = 0xF0000000) : Carries w .reset

theorem toNat_encode_step (v : BitVec 24) : (encode (.step v.toNat)).toNat = 0x10000000 + v.toNat := by
  rw [encode, BitVec.ofNat_toNat]
  exact toNat_or_operand v (by decide) (by decide)

theorem toNat_encode_press (x : Button) : (encode (.press x)).toNat = 0x20000000 + x.id.toNat :=
  toNat_or_operand x.id (by decide) (by decide)

theorem toNat_encode_release (x : Button) : (encode (.release x)).toNat = 0x30000000 + x.id.toNat :=
  toNat_or_operand x.id (by decide) (by decide)

theorem toNat_encodeRead (r : Reg) : (encodeRead r).toNat = 0x40000000 + r.sel.toNat * 0x100 := by
  cases r <;> rfl

theorem toNat_encodeWrite (r : Reg) (v : Byte) :
    (encodeWrite r v).toNat = 0x50000000 + r.sel.toNat * 0x100 + v.toNat := by
  rw [encodeWrite, toNat_or_operand v (by decide) (by cases r <;> decide)]
  cases r <;> rfl

theorem encode_rd (r : Reg) : encode (Instr.rd r) = encodeRead r := by
  cases r <;> rfl

theorem encode_wr (r : Reg) (v : Byte) : encode (Instr.wr r v) = encodeWrite r v := by
  cases r <;> rfl

/-- A well-formed operation is carried by its word. -/
theorem carries_encode {i : Instr} (h : i.wellFormed = true) : Carries (encode i) i := by
  cases i with
  | step n =>
    have hn : n < 2 ^ 24 := of_decide_eq_true h
    have hv : (BitVec.ofNat 24 n).toNat = n := by rw [BitVec.toNat_ofNat, Nat.mod_eq_of_lt hn]
    rw [← hv]
    exact .step _ (toNat_encode_step _)
  | press x => exact .press x (toNat_encode_press x)
  | release x => exact .release x (toNat_encode_release x)
  | rdDiv => exact .rd .DIV (toNat_encodeRead _)
  | rdTima => exact .rd .TIMA (toNat_encodeRead _)
  | rdTma => exact .rd .TMA (toNat_encodeRead _)
  | rdTac => exact .rd .TAC (toNat_encodeRead _)
  | rdIf => exact .rd .IF (toNat_encodeRead _)
  | rdJoyp => exact .rd .JOYP (toNat_encodeRead _)
  | wrDiv v => exact .wr .DIV v (toNat_encodeWrite _ v)
  | wrTima v => exact .wr .TIMA v (toNat_encodeWrite _ v)
  | wrTma v => exact .wr .TMA v (toNat_encodeWrite _ v)
  | wrTac v => exact .wr .TAC v (toNat_encodeWrite _ v)
  | wrIf v => exact .wr .IF v (toNat_encodeWrite _ v)
  | wrJoyp v => exact .wr .JOYP v (toNat_encodeWrite _ v)
  | reset => exact .reset rfl

theorem Carries.wellFormed {w : TxWord} {i : Instr} (h : Carries w i) : i.wellFormed = true := by
  cases h with
  | step v _ => exact decide_eq_true v.isLt
  | rd r _ => cases r <;> rfl
  | wr r v _ => cases r <;> rfl
  | _ => rfl

theorem Carries.encode_eq {w : TxWord} {i : Instr} (h : Carries w i) : encode i = w := by
  apply BitVec.eq_of_toNat_eq
  cases h with
  | step v h => rw [h, toNat_encode_step]
  | press x h => rw [h, toNat_encode_press]
  | release x h => rw [h, toNat_encode_release]
  | rd r h => rw [h, encode_rd, toNat_encodeRead]
  | wr r v h => rw [h, encode_wr, toNat_encodeWrite]
  | reset h => rw [h]; rfl

theorem decodeStep_eq_ok_iff {w : TxWord} {i : Instr} :
    decodeStep w = .ok i ↔ ∃ v, w.extractLsb' 0 24 = v ∧ i = .step v.toNat := by
  simp [decodeStep, eq_comm]

theorem decodeButton_eq_ok_iff {mk : Button → Instr} {w : TxWord} {i : Instr} :
    decodeButton mk w = .ok i ↔ w.extractLsb' 3 21 = 0 ∧ ∃ x : Button, w.extractLsb' 0 3 = x.id ∧ i = mk x := by
  unfold decodeButton
  split
  case isTrue hz => simp [hz, ← Button.ofId_eq_iff, eq_comm]
  case isFalse hz => simp only [hz, reduceCtorEq, false_and]

theorem decodeRead_eq_ok_iff {w : TxWord} {i : Instr} :
    decodeRead w = .ok i ↔ w.extractLsb' 11 13 = 0 ∧
      ∃ r : Reg, w.extractLsb' 8 3 = r.sel ∧ w.extractLsb' 0 8 = 0 ∧ i = Instr.rd r := by
  simp only [← Reg.ofSel_eq_some_iff]
  unfold decodeRead
  split
  case isFalse hz => simp only [hz, reduceCtorEq, false_and]
  case isTrue hz =>
    cases Reg.ofSel (w.extractLsb' 8 3) with
    | none => simp
    | some r => by_cases hd : w.extractLsb' 0 8 = 0#8 <;> simp [hz, hd, @eq_comm _ i]

theorem decodeWrite_eq_ok_iff {w : TxWord} {i : Instr} :
    decodeWrite w = .ok i ↔ w.extractLsb' 11 13 = 0 ∧
      ∃ (r : Reg) (v : Byte), w.extractLsb' 8 3 = r.sel ∧ w.extractLsb' 0 8 = v ∧ i = Instr.wr r v := by
  simp only [← Reg.ofSel_eq_some_iff]
  unfold decodeWrite
  split
  case isFalse hz => simp only [hz, reduceCtorEq, false_and]
  case isTrue hz => cases Reg.ofSel (w.extractLsb' 8 3) <;> simp [hz, eq_comm]

theorem decodeSystem_eq_ok_iff {w : TxWord} {i : Instr} :
    decodeSystem w = .ok i ↔ w.extractLsb' 0 24 = 0 ∧ i = .reset := by
  unfold decodeSystem
  split
  case isTrue hz => simp [hz, eq_comm]
  case isFalse hz => simp only [hz, reduceCtorEq, false_and]

/-- What a word must be to decode: the reserved nibble zero, and one of the six operation codes in its format. -/
theorem decode_eq_ok_iff {w : TxWord} {i : Instr} :
    decode w = .ok i ↔ w.extractLsb' 24 4 = 0 ∧
      (((w.extractLsb' 28 4).toNat = 1 ∧ decodeStep w = .ok i) ∨
        ((w.extractLsb' 28 4).toNat = 2 ∧ decodeButton .press w = .ok i) ∨
        ((w.extractLsb' 28 4).toNat = 3 ∧ decodeButton .release w = .ok i) ∨
        ((w.extractLsb' 28 4).toNat = 4 ∧ decodeRead w = .ok i) ∨
        ((w.extractLsb' 28 4).toNat = 5 ∧ decodeWrite w = .ok i) ∨
        ((w.extractLsb' 28 4).toNat = 15 ∧ decodeSystem w = .ok i)) := by
  generalize hop : (w.extractLsb' 28 4).toNat = op
  unfold decode
  rw [hop]
  split
  case isTrue hz => split <;> simp_all
  case isFalse hz => simp only [hz, reduceCtorEq, false_and]

/-- The decoder accepts exactly the words that carry an operation: the fields of a format are digits of the word. -/
theorem decode_eq_ok_iff_carries {w : TxWord} {i : Instr} : decode w = .ok i ↔ Carries w i := by
  rw [decode_eq_ok_iff, decodeStep_eq_ok_iff, decodeButton_eq_ok_iff, decodeButton_eq_ok_iff, decodeRead_eq_ok_iff,
    decodeWrite_eq_ok_iff, decodeSystem_eq_ok_iff]
  simp only [extractLsb'_eq_iff, toNat_extractLsb', BitVec.ofNat_eq_ofNat, BitVec.toNat_zero]
  constructor
  · rintro ⟨hz, ⟨hop, v, hv, rfl⟩ | ⟨hop, hz', x, hx, rfl⟩ | ⟨hop, hz', x, hx, rfl⟩ | ⟨hop, hz', r, hr, hd, rfl⟩ |
      ⟨hop, hz', r, v, hr, hv, rfl⟩ | ⟨hop, hz', rfl⟩⟩
    · exact .step v (by omega)
    · exact .press x (by omega)
    · exact .release x (by omega)
    · exact .rd r (by omega)
    · exact .wr r v (by omega)
    · exact .reset (by omega)
  · intro h
    cases h with
    | step v h => exact ⟨by omega, .inl ⟨by omega, v, by omega, rfl⟩⟩
    | press x h => exact ⟨by omega, .inr (.inl ⟨by omega, by omega, x, by omega, rfl⟩)⟩
    | release x h => exact ⟨by omega, .inr (.inr (.inl ⟨by omega, by omega, x, by omega, rfl⟩))⟩
    | rd r h => exact ⟨by omega, .inr (.inr (.inr (.inl ⟨by omega, by omega, r, by omega, by omega, rfl⟩)))⟩
    | wr r v h =>
      exact ⟨by omega, .inr (.inr (.inr (.inr (.inl ⟨by omega, by omega, r, v, by omega, by omega, rfl⟩))))⟩
    | reset h => exact ⟨by omega, .inr (.inr (.inr (.inr (.inr ⟨by omega, by omega, rfl⟩))))⟩

/-- Settles O47: the encoder's word carries the operation, and the decoder accepts what a word carries. -/
theorem decodeAfterEncode : Obligations.DecodeAfterEncode :=
  fun _ h => decode_eq_ok_iff_carries.mpr (carries_encode h)

/-- Settles O48: the word carries the operation it decodes to, so that is well-formed and encodes to the word. -/
theorem encodeAfterDecode : Obligations.EncodeAfterDecode := by
  intro w i h
  have hc := decode_eq_ok_iff_carries.mp h
  exact ⟨hc.wellFormed, hc.encode_eq⟩

/-- Settles O50: the words are fixed, so the decoder is run on each. -/
theorem workedEncodings : Obligations.WorkedEncodings := by
  refine ⟨?legal, ?illegal⟩
  case legal => decide
  case illegal => decide

end Sys2Proof
end

section
/-! The opcode map (30_encoding.md R65): a word matches a row when it carries an operation in the row's format. -/

namespace Sys2Proof

/-- The mask of the upper bits clears the low ones. -/
theorem toNat_and_mask (w : TxWord) {k : Nat} :
    (w &&& (BitVec.allOnes 32 <<< k)).toNat = w.toNat / 2 ^ k * 2 ^ k := by
  rw [← BitVec.shiftLeft_ushiftRight, BitVec.toNat_shiftLeft, BitVec.toNat_ushiftRight, Nat.shiftLeft_eq,
    Nat.shiftRight_eq_div_pow]
  exact Nat.mod_eq_of_lt ((Nat.div_mul_le_self _ _).trans_lt w.isLt)

/-- A word matches a row whose last `k` bits are an operand exactly when it is the pattern plus some operand. -/
theorem and_mask_eq_iff {w p : TxWord} {k : Nat} (hp : 2 ^ k ∣ p.toNat) :
    w &&& (BitVec.allOnes 32 <<< k) = p ↔ ∃ v : BitVec k, w.toNat = p.toNat + v.toNat := by
  obtain ⟨a, ha⟩ := hp
  rw [← BitVec.toNat_inj, toNat_and_mask, ha]
  constructor
  · intro h
    refine ⟨w.extractLsb' 0 k, ?_⟩
    rw [toNat_extractLsb', pow_zero, Nat.div_one, ← h]
    exact (Nat.div_add_mod' _ _).symm
  · rintro ⟨v, hv⟩
    rw [hv, Nat.mul_add_div (Nat.two_pow_pos k), Nat.div_eq_of_lt v.isLt, Nat.add_zero, Nat.mul_comm]

/-- Every value of the 3-bit operand is a button (30_encoding.md R62). -/
theorem and_mask_eq_iff_button {w p : TxWord} (hp : 2 ^ 3 ∣ p.toNat) :
    w &&& 0xFFFFFFF8 = p ↔ ∃ x : Button, w.toNat = p.toNat + x.id.toNat := by
  have hid : Function.Surjective Button.id := fun k => ⟨Button.ofId k, (Button.ofId_eq_iff.mp rfl).symm⟩
  rw [← hid.exists (p := fun v : BitVec 3 => w.toNat = p.toNat + v.toNat)]
  exact and_mask_eq_iff hp

/-- The opcode map with one line for the reads and one for the writes. -/
theorem opcodeMap_eq_formats : opcodeMap =
    [(0xFF000000, 0x10000000), (0xFFFFFFF8, 0x20000000), (0xFFFFFFF8, 0x30000000)] ++
      [Reg.DIV, .TIMA, .TMA, .TAC, .IF, .JOYP].map (fun r => (0xFFFFFFFF, encodeRead r)) ++
      [Reg.DIV, .TIMA, .TMA, .TAC, .IF, .JOYP].map (fun r => (0xFFFFFF00, encodeWrite r 0)) ++
      [(0xFFFFFFFF, 0xF0000000)] := rfl

/-- The rows of a format of the bus are one a cell. -/
theorem exists_mem_map_cells {α : Type} {f : Reg → α} {P : α → Prop} :
    (∃ a ∈ [Reg.DIV, .TIMA, .TMA, .TAC, .IF, .JOYP].map f, P a) ↔ ∃ r, P (f r) := by
  simp only [List.mem_map, Machine.mem_cells, true_and, exists_exists_eq_and]

theorem exists_row_iff {P : TxWord × TxWord → Prop} : (∃ row ∈ opcodeMap, P row) ↔
    P (0xFF000000, 0x10000000) ∨ P (0xFFFFFFF8, 0x20000000) ∨ P (0xFFFFFFF8, 0x30000000) ∨
      (∃ r, P (0xFFFFFFFF, encodeRead r)) ∨ (∃ r, P (0xFFFFFF00, encodeWrite r 0)) ∨ P (0xFFFFFFFF, 0xF0000000) := by
  simp only [opcodeMap_eq_formats, List.mem_append, or_and_right, exists_or, exists_mem_map_cells, List.mem_cons,
    List.not_mem_nil, or_false, exists_eq_left, or_assoc]

/-- The decoder's formats and the rows are held against each other, format by format. -/
theorem exists_carries_iff_row {w : TxWord} :
    (∃ i, Carries w i) ↔ ∃ row ∈ opcodeMap, w &&& row.1 = row.2 := by
  have hstep : w &&& 0xFF000000 = 0x10000000 ↔ ∃ v : BitVec 24, w.toNat = 0x10000000 + v.toNat :=
    and_mask_eq_iff (k := 24) (p := 0x10000000) (by decide)
  have hwrite (r : Reg) :
      w &&& 0xFFFFFF00 = encodeWrite r 0 ↔ ∃ v : Byte, w.toNat = (encodeWrite r 0).toNat + v.toNat :=
    and_mask_eq_iff (k := 8) (by cases r <;> decide)
  have hwhole (p : TxWord) : w &&& 0xFFFFFFFF = p ↔ w.toNat = p.toNat := by
    rw [BitVec.toNat_inj, show w &&& 0xFFFFFFFF = w from BitVec.and_allOnes]
  rw [exists_row_iff, hstep, and_mask_eq_iff_button (by decide), and_mask_eq_iff_button (by decide)]
  simp only [hwrite, hwhole, toNat_encodeRead, toNat_encodeWrite]
  constructor
  · rintro ⟨i, h⟩
    cases h with
    | step v h => exact .inl ⟨v, h⟩
    | press x h => exact .inr (.inl ⟨x, h⟩)
    | release x h => exact .inr (.inr (.inl ⟨x, h⟩))
    | rd r h => exact .inr (.inr (.inr (.inl ⟨r, h⟩)))
    | wr r v h => exact .inr (.inr (.inr (.inr (.inl ⟨r, v, h⟩))))
    | reset h => exact .inr (.inr (.inr (.inr (.inr h))))
  · rintro (⟨v, h⟩ | ⟨x, h⟩ | ⟨x, h⟩ | ⟨r, h⟩ | ⟨r, v, h⟩ | h)
    · exact ⟨_, .step v h⟩
    · exact ⟨_, .press x h⟩
    · exact ⟨_, .release x h⟩
    · exact ⟨_, .rd r h⟩
    · exact ⟨_, .wr r v h⟩
    · exact ⟨_, .reset h⟩

/-- Two rows whose patterns differ on a bit both masks keep are matched by no word. -/
theorem not_matches_both {p q : TxWord × TxWord} (h : q.2 &&& p.1 ≠ p.2 &&& q.1) (w : TxWord) (hp : w &&& p.1 = p.2) :
    w &&& q.1 ≠ q.2 := by
  intro hq
  apply h
  rw [← hp, ← hq, BitVec.and_assoc, BitVec.and_assoc, BitVec.and_comm q.1]

/-- Settles O49: a word decodes when it carries an operation; two rows differ on a bit both masks keep. -/
theorem legalWordsMatchOpcodeMap : Obligations.LegalWordsMatchOpcodeMap := by
  refine ⟨fun w => ?row, ?disjoint⟩
  case row => simp only [decode_eq_ok_iff_carries, exists_carries_iff_row]
  case disjoint =>
    have h : opcodeMap.Pairwise fun p q => q.2 &&& p.1 ≠ p.2 &&& q.1 := by decide
    exact h.imp not_matches_both

end Sys2Proof
end

section
/-! The pseudo-operations (30_encoding.md R69): the fields of `TAC` in the bytes that TIMER.ON and TIMER.OFF write,
which overlap on no legal platform, and the groups that a written `JOYP` selects. -/

namespace Sys2Proof.Machine

theorem clockSelectByte_getLsbD (p : Platform) (cs : BitVec 2) {j : Nat} (hj : j < 8) :
    (clockSelectByte p cs).getLsbD j = (decide (p.tacCsLo.val ≤ j) && cs.getLsbD (j - p.tacCsLo.val)) := by
  simp [clockSelectByte, hj, ← decide_not]

/-- `TAC` decoded from its two fields (10_state.md R16). -/
theorem timerControl_eq {p : Platform} {v : Byte} {b : Bool} {cs : BitVec 2} (hen : v.getLsbD p.tacEnBit.val = b)
    (hcs : v.extractLsb' p.tacCsLo.val 2 = cs) : timerControl p v = ⟨b, clockSelectOf cs⟩ := by
  rw [timerControl, hen, hcs]

/-- The clock select is not written over the enable bit (00_scope.md R6). -/
theorem clockSelectByte_getLsbD_tacEnBit {p : Platform} (hp : p.Legal) (cs : BitVec 2) :
    (clockSelectByte p cs).getLsbD p.tacEnBit.val = false := by
  obtain ⟨hlo, hhi, -, -⟩ := hp
  rw [clockSelectByte_getLsbD p cs p.tacEnBit.isLt, Bool.and_eq_false_iff, decide_eq_false_iff_not]
  by_cases h : p.tacCsLo.val ≤ p.tacEnBit.val
  · exact .inr (BitVec.getLsbD_of_ge _ _ (by omega))
  · exact .inl h

theorem clockSelectByte_extractLsb' (p : Platform) (cs : BitVec 2) :
    (clockSelectByte p cs).extractLsb' p.tacCsLo.val 2 = cs := by
  apply BitVec.eq_of_getLsbD_eq
  intro j hj
  have := p.tacCsLo.isLt
  rw [BitVec.getLsbD_extractLsb', clockSelectByte_getLsbD p cs (by omega)]
  simp [hj]

theorem enableBit_extractLsb' {p : Platform} (hp : p.Legal) :
    (1#8 <<< p.tacEnBit.val).extractLsb' p.tacCsLo.val 2 = 0 := by
  obtain ⟨hlo, hhi, -, -⟩ := hp
  apply BitVec.eq_of_getLsbD_eq
  intro j hj
  have hne : p.tacCsLo.val + j ≠ p.tacEnBit.val := by omega
  rw [BitVec.getLsbD_extractLsb', getLsbD_one_shiftLeft, decide_eq_false hne, Bool.and_false]
  exact BitVec.getLsbD_zero.symm

/-- After `WR.JOYP v` the groups selected are those of `v`. -/
theorem exec_wrJoyp_selects (v : Byte) (s : State) : ∃ t, exec (.wrJoyp v) s = .next t ∧
    actionSelected t.rf.JOYP = actionSelected v ∧ directionSelected t.rf.JOYP = directionSelected v :=
  ⟨_, rfl, rfl, rfl⟩

/-- Settles O52: the bytes written have the fields named, on every legal platform. -/
theorem pseudoOperationsDoWhatTheyName : Obligations.PseudoOperationsDoWhatTheyName := by
  intro s hp
  refine ⟨fun cs => ⟨_, rfl, timerControl_eq ?onEnable ?onSelect⟩,
    fun cs => ⟨_, rfl, timerControl_eq ?offEnable ?offSelect⟩, ?select, ?irq⟩
  case onEnable =>
    refine getLsbD_or_of_left _ ?_
    rw [getLsbD_one_shiftLeft]
    exact decide_eq_true rfl
  case onSelect =>
    show ((1#8 <<< s.platform.tacEnBit.val) ||| clockSelectByte s.platform cs).extractLsb' s.platform.tacCsLo.val 2 = cs
    rw [BitVec.extractLsb'_or, enableBit_extractLsb' hp, clockSelectByte_extractLsb']
    exact BitVec.zero_or
  case offEnable => exact clockSelectByte_getLsbD_tacEnBit hp cs
  case offSelect => exact clockSelectByte_extractLsb' s.platform cs
  case select =>
    simp only [List.forall_mem_cons, List.not_mem_nil, false_imp_iff, implies_true, and_true]
    exact ⟨exec_wrJoyp_selects 0x10 s, exec_wrJoyp_selects 0x20 s, exec_wrJoyp_selects 0x00 s,
      exec_wrJoyp_selects 0x30 s⟩
  case irq => exact ⟨_, rfl, BitVec.getLsbD_zero, BitVec.getLsbD_zero⟩

end Sys2Proof.Machine
end

section
/-! The two halves of STEP (40_timer.md R81 to R86): the cells each one writes, their order, and what the whole STEP does
to the divider. -/

namespace Sys2Proof.Machine

/-- The divider half writes `DIV` and `div_acc` only (40_timer.md R86). -/
theorem dividerHalf_writes (n : Nat) (s : State) :
    ∃ d a, dividerHalf n s = { s with rf := { s.rf with DIV := d }, divAcc := a } :=
  ⟨_, _, by rw [dividerHalf_eq, wrap_iterate]⟩

/-- The ticks of a STEP write `TIMA` and `IF` only (40_timer.md R85). -/
theorem tick_iterate_writes (p : Platform) (k : Nat) (rf : RegFile) :
    ∃ c f, (tick p)^[k] rf = { rf with TIMA := c, IF := f } := by
  obtain ⟨hDIV, hTMA, hTAC, hJOYP⟩ := tick_iterate_frame p k rf
  refine ⟨((tick p)^[k] rf).TIMA, ((tick p)^[k] rf).IF, ?_⟩
  rw [← hDIV, ← hTMA, ← hTAC, ← hJOYP]

/-- The timer half writes `TIMA`, `IF` and `tima_acc` only (40_timer.md R86). -/
theorem timerHalf_writes (n : Nat) (s : State) :
    ∃ c f a, timerHalf n s = { s with rf := { s.rf with TIMA := c, IF := f }, timaAcc := a } := by
  by_cases he : s.enabled
  · obtain ⟨c, f, hticks⟩ := tick_iterate_writes s.platform ((s.timaAcc + n) / s.period) s.rf
    exact ⟨c, f, _, by rw [timerHalf_of_enabled n he, hticks]⟩
  · exact ⟨_, _, _, timerHalf_of_not_enabled n he⟩

/-- The divider half leaves the enable bit alone. -/
theorem dividerHalf_enabled (n : Nat) (s : State) : (dividerHalf n s).enabled ↔ s.enabled := by
  obtain ⟨d, a, h⟩ := dividerHalf_writes n s
  rw [h]

/-- The order of the halves cannot be observed: their turns commute (40_timer.md R86). -/
theorem timerHalf_dividerHalf_comm (m n : Nat) (s : State) :
    timerHalf m (dividerHalf n s) = dividerHalf n (timerHalf m s) := by
  by_cases he : s.enabled
  · rw [timerHalf_of_enabled m ((dividerHalf_enabled n s).mpr he), timerHalf_of_enabled m he, dividerHalf_eq,
      dividerHalf_eq, ← tick_iterate_wrap_iterate]
    simp only [State.period, wrap_iterate_TAC]
  · rw [timerHalf_of_not_enabled m (mt (dividerHalf_enabled n s).mp he), timerHalf_of_not_enabled m he, dividerHalf_eq,
      dividerHalf_eq]

theorem exec_step (n : Nat) (s : State) :
    exec (.step n) s = .next ((timerHalf n (dividerHalf n s)).respond none) := rfl

theorem wrap_iterate_DIV_toNat (k : Nat) (rf : RegFile) :
    (wrap^[k] rf).DIV.toNat = (rf.DIV.toNat + k) % 256 := by
  rw [wrap_iterate, BitVec.toNat_add, BitVec.toNat_ofNat, Nat.add_mod_mod]

/-- Settles O12: the divider half counts whole periods, and the timer half leaves the divider alone. -/
theorem dividerCountsWholePeriods : Obligations.DividerCountsWholePeriods := by
  intro s n
  obtain ⟨c, f, a, htimer⟩ := timerHalf_writes n (dividerHalf n s)
  refine ⟨_, exec_step n s, ?acc, ?div⟩ <;> rw [htimer, dividerHalf_eq]
  case acc => rfl
  case div => exact wrap_iterate_DIV_toNat _ _

/-- `EN` is one bit of the stored byte (10_state.md R16). -/
theorem State.not_enabled_iff {s : State} : ¬s.enabled ↔ s.rf.TAC.getLsbD s.platform.tacEnBit.val = false :=
  iff_of_eq (Bool.not_eq_true _)

/-- Settles O13: with `EN` = 0 the wraps of the divider are all a STEP does to the cells. -/
theorem disabledStepOnlyFeedsAccumulator : Obligations.DisabledStepOnlyFeedsAccumulator := by
  intro s n hen
  exact ⟨_, execStep_of_not_enabled n (State.not_enabled_iff.mpr hen), rfl, wrap_iterate_TIMA _ _, wrap_iterate_IF _ _⟩

end Sys2Proof.Machine
end

section
/-! The ticks of an enabled STEP in closed form (40_timer.md R85, R87). The first `256 - TIMA` ticks end in a reload; a
reloaded register file comes back to itself after `256 - TMA` ticks more. -/

namespace Sys2Proof.Machine

/-- What an overflowing tick leaves (40_timer.md R85). -/
def reload (p : Platform) (rf : RegFile) : RegFile := setIrq (timerBit p) { rf with TIMA := rf.TMA }

@[simp] theorem reload_TIMA (p : Platform) (rf : RegFile) : (reload p rf).TIMA = rf.TMA := rfl

@[simp] theorem reload_IF (p : Platform) (rf : RegFile) : (reload p rf).IF = rf.IF ||| timerBit p := rfl

theorem tick_eq_reload (p : Platform) {rf : RegFile} (h : rf.TIMA = 0xFF) : tick p rf = reload p rf :=
  tick_of_full p h

/-- A second reload has nothing left to do: the interrupt it raises is pending (20_memory.md R47). -/
theorem reload_reload (p : Platform) (rf : RegFile) : reload p (reload p rf) = reload p rf := by
  simp [reload, setIrq, BitVec.or_assoc]

/-- Counting to 0xFF and one tick more is the first overflow. -/
theorem tick_iterate_to_overflow (p : Platform) (rf : RegFile) :
    (tick p)^[256 - rf.TIMA.toNat] rf = reload p rf := by
  have hlt : rf.TIMA.toNat < 256 := rf.TIMA.isLt
  have hfull : rf.TIMA + BitVec.ofNat 8 (255 - rf.TIMA.toNat) = 0xFF := by
    bv_omega
  rw [show 256 - rf.TIMA.toNat = (255 - rf.TIMA.toNat) + 1 by omega, Function.iterate_succ_apply',
    tick_iterate_of_no_overflow p _ rf (by omega), hfull]
  exact tick_eq_reload p rfl

theorem reload_isPeriodicPt (p : Platform) (rf : RegFile) :
    Function.IsPeriodicPt (tick p) (256 - rf.TMA.toNat) (reload p rf) :=
  (tick_iterate_to_overflow p (reload p rf)).trans (reload_reload p rf)

/-- Past the first overflow only the ticks since the last one count. -/
theorem tick_iterate_of_overflow (p : Platform) {k : Nat} {rf : RegFile} (h : 256 - rf.TIMA.toNat ≤ k) :
    (tick p)^[k] rf = (tick p)^[(k - (256 - rf.TIMA.toNat)) % (256 - rf.TMA.toNat)] (reload p rf) := by
  conv_lhs => rw [← Nat.sub_add_cancel h]
  rw [Function.iterate_add_apply, tick_iterate_to_overflow, (reload_isPeriodicPt p rf).iterate_mod_apply]

/-- The closed form of `k` ticks (40_timer.md R87). -/
theorem tick_iterate_closed_form (p : Platform) (k : Nat) (rf : RegFile) :
    if k < 256 - rf.TIMA.toNat then
      ((tick p)^[k] rf).TIMA.toNat = rf.TIMA.toNat + k ∧ ((tick p)^[k] rf).IF = rf.IF
    else
      ((tick p)^[k] rf).TIMA.toNat = rf.TMA.toNat + (k - (256 - rf.TIMA.toNat)) % (256 - rf.TMA.toNat) ∧
        ((tick p)^[k] rf).IF = rf.IF ||| timerBit p := by
  split
  case isTrue h =>
    have hlt : rf.TIMA.toNat + k < 256 := by omega
    exact ⟨tick_iterate_TIMA_toNat p hlt, by rw [tick_iterate_of_no_overflow p k rf hlt]⟩
  case isFalse h =>
    have hTMA : rf.TMA.toNat < 256 := rf.TMA.isLt
    have hmod := Nat.mod_lt (k - (256 - rf.TIMA.toNat)) (Nat.sub_pos_of_lt hTMA)
    have hlt : (reload p rf).TIMA.toNat + (k - (256 - rf.TIMA.toNat)) % (256 - rf.TMA.toNat) < 256 := by
      rw [reload_TIMA]
      omega
    rw [tick_iterate_of_overflow p (Nat.le_of_not_lt h)]
    exact ⟨tick_iterate_TIMA_toNat p hlt, by rw [tick_iterate_of_no_overflow p _ _ hlt, reload_IF]⟩

/-- An enabled STEP as ticks of the stored cells: the wraps can come last. -/
theorem exec_step_of_enabled (n : Nat) {s : State} (he : s.enabled) :
    exec (.step n) s = .next { s with
      rf := wrap^[(s.divAcc + n) / 256] ((tick s.platform)^[(s.timaAcc + n) / s.period] s.rf)
      divAcc := (s.divAcc + n) % 256
      timaAcc := (s.timaAcc + n) % s.period
      response := none } := by
  rw [← tick_iterate_wrap_iterate]
  exact execStep_of_enabled n he

/-- Settles O16: the wraps do not touch the cells in question, and the ticks have their closed form. -/
theorem timerClosedForm : Obligations.TimerClosedForm := by
  rintro s n _ _ he rfl rfl
  refine ⟨_, exec_step_of_enabled n he, rfl, ?_⟩
  simp only [wrap_iterate_TIMA, wrap_iterate_IF]
  exact tick_iterate_closed_form s.platform ((s.timaAcc + n) / s.period) s.rf

/-- Settles O15: the only tick of the STEP counts up or reloads. -/
theorem tickCountsOrReloads : Obligations.TickCountsOrReloads := by
  intro s n he hone
  have hexec := exec_step_of_enabled n he
  rw [hone, Function.iterate_one] at hexec
  refine ⟨_, hexec, ?acc, ?tma, ?counts, ?reloads⟩
  case acc =>
    have hdiv := Nat.mod_add_div (s.timaAcc + n) s.period
    rwa [hone, Nat.mul_one] at hdiv
  case tma =>
    obtain ⟨-, hTMA, -⟩ := tick_frame s.platform s.rf
    rw [wrap_iterate_TMA, hTMA]
  case counts =>
    intro hTIMA
    rw [wrap_iterate_TIMA, wrap_iterate_IF, tick_of_not_full _ hTIMA]
    refine ⟨?_, rfl⟩
    bv_omega
  case reloads =>
    intro hTIMA
    rw [wrap_iterate_TIMA, wrap_iterate_IF, tick_eq_reload _ hTIMA]
    refine ⟨rfl, ?set, fun _ => getLsbD_or_one_shiftLeft_of_ne _, or_one_shiftLeft_of_getLsbD⟩
    rw [reload_IF, timerBit, BitVec.getLsbD_or, getLsbD_one_shiftLeft, decide_eq_true rfl, Bool.or_true]

end Sys2Proof.Machine
end

section
/-! Laws of whole STEPs: additivity, the frame, STEP 0, and what each half depends on (40_timer.md R80, R86, R88, R90). -/

namespace Sys2Proof.Machine

/-- The turns of a loop over a sum: those of the first part, then those of what it left over and the second part. -/
theorem turns_add (acc n : Nat) {period : Nat} (hp : 0 < period) :
    (acc + n) / period = (acc % period + n) / period + acc / period := by
  conv_lhs => rw [← Nat.mod_add_div acc period, Nat.add_right_comm, Nat.add_mul_div_left _ _ hp]

theorem dividerHalf_add (m n : Nat) (s : State) : dividerHalf n (dividerHalf m s) = dividerHalf (m + n) s := by
  simp only [dividerHalf_eq, ← Nat.add_assoc, Nat.mod_add_mod, turns_add (s.divAcc + m) n (period := 256) (by decide),
    Function.iterate_add_apply]

/-- The timer half leaves `TAC`, and so its decoding, alone. -/
theorem timerHalf_keeps_control (n : Nat) (s : State) :
    ((timerHalf n s).enabled ↔ s.enabled) ∧ (timerHalf n s).period = s.period := by
  obtain ⟨c, f, a, h⟩ := timerHalf_writes n s
  rw [h]
  exact ⟨Iff.rfl, rfl⟩

theorem timerHalf_add (m n : Nat) (s : State) : timerHalf n (timerHalf m s) = timerHalf (m + n) s := by
  obtain ⟨henabled, hperiod⟩ := timerHalf_keeps_control m s
  by_cases he : s.enabled
  · rw [timerHalf_of_enabled n (henabled.mpr he), hperiod, timerHalf_of_enabled m he, timerHalf_of_enabled (m + n) he,
      ← Nat.add_assoc, turns_add (s.timaAcc + m) n s.period_pos, Function.iterate_add_apply, Nat.mod_add_mod]
  · rw [timerHalf_of_not_enabled n (mt henabled.mp he), timerHalf_of_not_enabled m he, timerHalf_of_not_enabled _ he,
      Nat.add_assoc]

/-- STEP does not see the byte the last operation returned. -/
theorem exec_step_respond (n : Nat) (v : Option Byte) (s : State) :
    exec (.step n) (s.respond v) = exec (.step n) s := by
  by_cases he : s.enabled
  · exact (execStep_of_enabled n (s := s.respond v) he).trans (execStep_of_enabled n he).symm
  · exact (execStep_of_not_enabled n (s := s.respond v) he).trans (execStep_of_not_enabled n he).symm

/-- Two STEPs are one STEP of their sum (40_timer.md R88): the halves can be sorted, and each adds up. -/
theorem exec_step_add {s t : State} {m : Nat} (n : Nat) (h : exec (.step m) s = .next t) :
    exec (.step n) t = exec (.step (m + n)) s := by
  cases (exec_step m s).symm.trans h
  rw [exec_step_respond, exec_step, exec_step, ← timerHalf_dividerHalf_comm m n, timerHalf_add, dividerHalf_add]

/-- Settles O17, by induction on the list: its first STEP is added to the one before it. -/
theorem stepsAddUp : Obligations.StepsAddUp := by
  intro s n ns
  induction ns generalizing s n with
  | nil => exact execAll_cons_of_next (exec_step n s) []
  | cons m ns ih =>
    rw [List.map_cons, execAll_cons_of_next (exec_step n s), ih, exec_step_add _ (exec_step n s), List.sum_cons]

/-- Everything a STEP can write (40_timer.md R80). -/
theorem exec_step_writes (n : Nat) (s : State) : ∃ d c f a b, exec (.step n) s = .next { s with
    rf := { s.rf with DIV := d, TIMA := c, IF := f }
    divAcc := a
    timaAcc := b
    response := none } := by
  obtain ⟨d, a, hdivider⟩ := dividerHalf_writes n s
  obtain ⟨c, f, b, htimer⟩ := timerHalf_writes n (dividerHalf n s)
  refine ⟨d, c, f, a, b, ?_⟩
  rw [exec_step, htimer, hdivider]
  rfl

/-- Settles O18: the cells a STEP writes, what it does to `IF`, and that it does nothing to the timer's cells when
disabled. -/
theorem stepFrame : Obligations.StepFrame := by
  intro s n
  obtain ⟨d, c, f, a, b, ht⟩ := exec_step_writes n s
  refine ⟨_, ht, rfl, rfl, rfl, rfl, rfl, rfl, rfl, ?foreign, ?pending, ?disabled⟩
  case foreign =>
    intro j hj
    obtain ⟨u, hu, hIF⟩ := exec_step_IF n s
    cases ht.symm.trans hu
    rcases hIF with hIF | hIF <;> rw [hIF]
    exact getLsbD_or_one_shiftLeft_of_ne _ hj
  case pending =>
    obtain ⟨hkeeps, -⟩ := flagBitsClearedOnlyByWriteOrReset _ _ _ ht nofun nofun
    exact hkeeps s.platform.ifTimerBit.val
  case disabled =>
    intro he
    obtain ⟨u, hu, -, hcells⟩ := disabledStepOnlyFeedsAccumulator s n (State.not_enabled_iff.mp he)
    cases ht.symm.trans hu
    exact hcells

/-- With `div_acc` in its bound, no wrap is due. -/
theorem dividerHalf_zero {s : State} (h : s.divAcc < 256) : dividerHalf 0 s = s := by
  rw [dividerHalf_eq, Nat.add_zero, Nat.div_eq_of_lt h, Nat.mod_eq_of_lt h, Function.iterate_zero_apply]

/-- With no stale accumulator, or disabled, no tick is due. -/
theorem timerHalf_zero {s : State} (h : s.enabled → s.timaAcc < s.period) : timerHalf 0 s = s := by
  by_cases he : s.enabled
  · rw [timerHalf_of_enabled 0 he, Nat.add_zero, Nat.div_eq_of_lt (h he), Nat.mod_eq_of_lt (h he),
      Function.iterate_zero_apply]
  · rw [timerHalf_of_not_enabled 0 he, Nat.add_zero]

/-- Settles O19: of STEP 0 only the timer half is left, and of that only the ticks a stale accumulator has due. -/
theorem stepZeroDrainsOnlyStaleAccumulator : Obligations.StepZeroDrainsOnlyStaleAccumulator := by
  intro s hdivAcc
  have hexec := exec_step 0 s
  rw [dividerHalf_zero hdivAcc] at hexec
  refine ⟨?fresh, ?stale⟩
  case fresh =>
    intro hfresh
    rw [hexec, timerHalf_zero hfresh]
    rfl
  case stale =>
    intro he hstale
    obtain ⟨c, f, a, hwrites⟩ := timerHalf_writes 0 s
    refine ⟨_, hexec, ?below, by rw [hwrites]; rfl, by rw [hwrites]; rfl, ?overflow⟩
    case below =>
      rw [timerHalf_of_enabled 0 he]
      exact Nat.mod_lt _ s.period_pos
    case overflow =>
      intro hTIMA hlt
      have hone : (s.timaAcc + 0) / s.period = 1 := Nat.div_eq_of_lt_le (by omega) (by omega)
      obtain ⟨t, ht, -, -, -, hreload⟩ := tickCountsOrReloads s 0 he hone
      cases hexec.symm.trans ht
      obtain ⟨hcell, hbit, -⟩ := hreload hTIMA
      rw [State.irqTimer, exec_platform ht]
      exact ⟨hcell, hbit⟩

/-- What the divider's results depend on (40_timer.md R86). -/
theorem exec_step_divider_congr {s s' t t' : State} {n : Nat} (hDIV : s.rf.DIV = s'.rf.DIV)
    (hacc : s.divAcc = s'.divAcc) (ht : exec (.step n) s = .next t) (ht' : exec (.step n) s' = .next t') :
    t.rf.DIV = t'.rf.DIV ∧ t.divAcc = t'.divAcc := by
  obtain ⟨u, hu, hdivAcc, hcount⟩ := dividerCountsWholePeriods s n
  obtain ⟨u', hu', hdivAcc', hcount'⟩ := dividerCountsWholePeriods s' n
  cases hu.symm.trans ht
  cases hu'.symm.trans ht'
  rw [hDIV, hacc, ← hcount'] at hcount
  rw [hacc, ← hdivAcc'] at hdivAcc
  exact ⟨BitVec.eq_of_toNat_eq hcount, hdivAcc⟩

/-- What the timer's results depend on (40_timer.md R86): the closed forms of the two STEPs are the same. -/
theorem exec_step_timer_congr {s s' t t' : State} {n : Nat} (hplatform : s.platform = s'.platform)
    (hTAC : s.rf.TAC = s'.rf.TAC) (hTMA : s.rf.TMA = s'.rf.TMA) (hTIMA : s.rf.TIMA = s'.rf.TIMA)
    (hIF : s.rf.IF = s'.rf.IF) (hacc : s.timaAcc = s'.timaAcc)
    (ht : exec (.step n) s = .next t) (ht' : exec (.step n) s' = .next t') :
    t.rf.TIMA = t'.rf.TIMA ∧ t.rf.IF = t'.rf.IF ∧ t.timaAcc = t'.timaAcc := by
  have henabled : s.enabled ↔ s'.enabled := by rw [State.enabled, State.enabled, hplatform, hTAC]
  have hperiod : s.period = s'.period := by rw [State.period, State.period, hplatform, hTAC]
  by_cases he : s.enabled
  · obtain ⟨u, hu, htimaAcc, hcells⟩ := timerClosedForm s n _ _ he rfl rfl
    obtain ⟨u', hu', htimaAcc', hcells'⟩ := timerClosedForm s' n _ _ (henabled.mp he) rfl rfl
    cases hu.symm.trans ht
    cases hu'.symm.trans ht'
    rw [hacc, hperiod, ← htimaAcc'] at htimaAcc
    rw [hplatform, hTMA, hTIMA, hIF, hacc, hperiod] at hcells
    split_ifs at hcells hcells'
    all_goals
      obtain ⟨hTIMAu, hIFu⟩ := hcells
      obtain ⟨hTIMAu', hIFu'⟩ := hcells'
      exact ⟨BitVec.eq_of_toNat_eq (hTIMAu.trans hTIMAu'.symm), hIFu.trans hIFu'.symm, htimaAcc⟩
  · obtain ⟨u, hu, htimaAcc, hTIMAu, hIFu⟩ := disabledStepOnlyFeedsAccumulator s n (State.not_enabled_iff.mp he)
    obtain ⟨u', hu', htimaAcc', hTIMAu', hIFu'⟩ :=
      disabledStepOnlyFeedsAccumulator s' n (State.not_enabled_iff.mp (mt henabled.mpr he))
    cases hu.symm.trans ht
    cases hu'.symm.trans ht'
    rw [hTIMAu, hTIMAu', hIFu, hIFu', htimaAcc, htimaAcc', hTIMA, hIF, hacc]
    exact ⟨rfl, rfl, rfl⟩

/-- Settles O20: what each half depends on, that the halves commute, and what each writes. -/
theorem stepHalvesAreIndependent : Obligations.StepHalvesAreIndependent :=
  ⟨fun _ _ _ _ _ => exec_step_divider_congr, fun _ _ _ _ _ => exec_step_timer_congr,
    fun s n => ⟨timerHalf_dividerHalf_comm n n s, dividerHalf_writes n s, timerHalf_writes n s⟩⟩

end Sys2Proof.Machine
end

section
/-! PRESS and RELEASE (41_joypad.md R100, R101, R107, R110): both set the flag of the button they name, and the joypad
interrupt is raised with it when the flag goes up. -/

namespace Sys2Proof.Machine

@[simp] theorem setFlag_flagOf (bs : Buttons) (x : Button) : setFlag bs x (flagOf bs x) = bs := by
  cases x <;> rfl

/-- Different buttons are different flags (10_state.md R24). -/
theorem setFlag_comm (bs : Buttons) (v w : Bool) {x y : Button} (h : x ≠ y) :
    setFlag (setFlag bs x v) y w = setFlag (setFlag bs y w) x v := by
  apply buttons_eq_of_flags
  intro z
  simp only [flagOf_setFlag]
  by_cases hx : z = x
  · simp [hx, h]
  · simp [hx]

theorem getLsbD_or_one_shiftLeft_self (v : Byte) (b : Fin 8) : (v ||| (1#8 <<< b.val)).getLsbD b.val = true := by
  rw [BitVec.getLsbD_or, getLsbD_one_shiftLeft, decide_eq_true rfl, Bool.or_true]

/-- What PRESS (`v = true`) and RELEASE (`v = false`) of `x` leave: the flag is `v`, and if it was raised by that, so is
the joypad interrupt (41_joypad.md R100, R101). -/
def State.moveButton (x : Button) (v : Bool) (s : State) : State :=
  { s with
    rf := if v && !flagOf s.btn x then setIrq (joypadBit s.platform) s.rf else s.rf
    btn := setFlag s.btn x v
    response := none }

theorem exec_press (x : Button) (s : State) : exec (.press x) s = .next (s.moveButton x true) := by
  cases hx : flagOf s.btn x with
  | false => exact (execPress_of_released hx).trans (by simp [State.moveButton, hx])
  | true =>
    have hbtn : setFlag s.btn x true = s.btn := by rw [← hx, setFlag_flagOf]
    exact (execPress_of_pressed hx).trans (by simp [State.moveButton, hx, hbtn])

theorem exec_release (x : Button) (s : State) : exec (.release x) s = .next (s.moveButton x false) := rfl

theorem exec_of_mem_press_release {x : Button} {i : Instr} (h : i ∈ [Instr.press x, .release x]) :
    ∃ v, ∀ s, exec i s = .next (s.moveButton x v) := by
  rcases List.mem_pair.mp h with rfl | rfl
  · exact ⟨true, exec_press x⟩
  · exact ⟨false, exec_release x⟩

/-- Each of the two moves sees the other button's flag only in its own, and raises the same bit. -/
theorem State.moveButton_comm (s : State) (v w : Bool) {x y : Button} (h : x ≠ y) :
    (s.moveButton x v).moveButton y w = (s.moveButton y w).moveButton x v := by
  simp only [State.moveButton, flagOf_setFlag_of_ne _ _ h, flagOf_setFlag_of_ne _ _ h.symm, setFlag_comm _ _ _ h]
  split_ifs <;> rfl

/-- No move looks at the stored `JOYP` (41_joypad.md R107). -/
theorem State.moveButton_withJoyp (x : Button) (v : Bool) (sel : Byte) (s : State) :
    State.moveButton x v { s with rf := { s.rf with JOYP := sel } } =
      { s.moveButton x v with rf := { (s.moveButton x v).rf with JOYP := sel } } := by
  simp only [State.moveButton]
  split_ifs <;> rfl

/-- Settles O30: the word is the encoder's, and PRESS does what its two cases say. -/
theorem pressSetsFlagAndRaisesOnEdge : Obligations.PressSetsFlagAndRaisesOnEdge := by
  intro x
  refine ⟨decodeAfterEncode (.press x) rfl, fun s => ⟨execPress_of_pressed, ?released⟩⟩
  case released =>
    intro hx
    exact ⟨_, execPress_of_released hx, flagOf_setFlag_self _ _ _, fun y => flagOf_setFlag_of_ne _ _, rfl,
      getLsbD_or_one_shiftLeft_self _ _, fun j => getLsbD_or_one_shiftLeft_of_ne _, fun r => cellOf_setIrq_of_ne _ _,
      rfl, rfl, rfl, rfl, rfl⟩

/-- Settles O31: the word is the encoder's, and RELEASE writes one flag, which a released button holds already. -/
theorem releaseClearsFlagOnly : Obligations.ReleaseClearsFlagOnly := by
  intro x
  refine ⟨decodeAfterEncode (.release x) rfl, fun s => ⟨_, exec_release x s, flagOf_setFlag_self _ _ _,
    fun y => flagOf_setFlag_of_ne _ _, rfl, rfl, rfl, rfl, rfl, rfl, ?released⟩⟩
  case released =>
    intro hx
    show setFlag s.btn x false = s.btn
    rw [← hx, setFlag_flagOf]

/-- Settles O32: PRESS reads no select bit, and WR.JOYP writes no cell but its own. -/
theorem pressIgnoresSelection : Obligations.PressIgnoresSelection := by
  intro s x v
  refine ⟨⟨_, exec_press x s, ?raised, ?anySelection⟩, ⟨_, rfl, rfl⟩⟩
  case raised =>
    intro hx
    simp only [State.moveButton, hx, State.irqJoypad]
    exact getLsbD_or_one_shiftLeft_self _ _
  case anySelection => rw [exec_press, State.moveButton_withJoyp]

/-- Settles O34: the two moves of different buttons commute; of one button, the later operation decides the flag. -/
theorem differentButtonsCommute : Obligations.DifferentButtonsCommute := by
  refine ⟨?different, ?same⟩
  case different =>
    intro x y s hxy i hi j hj
    obtain ⟨v, hv⟩ := exec_of_mem_press_release hi
    obtain ⟨w, hw⟩ := exec_of_mem_press_release hj
    rw [execAll_cons_of_next (hv s), execAll_cons_of_next (hw _), execAll_cons_of_next (hw s),
      execAll_cons_of_next (hv _), State.moveButton_comm s v w hxy]
  case same =>
    intro x s heq
    obtain ⟨t, ht⟩ : ∃ t, execAll [.press x, .release x] s = .next t := ⟨_, rfl⟩
    have hwins := fun pre => lastPressOrReleaseWins x pre [] s t List.not_mem_nil List.not_mem_nil List.not_mem_nil
    have hdown : flagOf t.btn x = false := (hwins [.press x]).2.1 ht
    have hup : flagOf t.btn x = true := (hwins [.release x]).1 (heq ▸ ht)
    exact absurd (hup.symm.trans hdown) (by decide)

end Sys2Proof.Machine
end

section
/-! RD.JOYP bit by bit (41_joypad.md R102 to R106): a bit of the low nibble is 0 when a selected group's button of that
position is pressed. -/

namespace Sys2Proof.Machine

theorem nibbleOf_getLsbD (b0 b1 b2 b3 : Bool) :
    (nibbleOf b0 b1 b2 b3).getLsbD 0 = b0 ∧ (nibbleOf b0 b1 b2 b3).getLsbD 1 = b1 ∧
      (nibbleOf b0 b1 b2 b3).getLsbD 2 = b2 ∧ (nibbleOf b0 b1 b2 b3).getLsbD 3 = b3 := by
  revert b0 b1 b2 b3
  decide

/-- The closed form of 41_joypad.md R106: a group that is not selected clears nothing. -/
theorem joypLow_eq (sel : Byte) (bs : Buttons) :
    joypLow sel bs = ~~~((if actionSelected sel then actionNibble bs else 0) |||
      (if directionSelected sel then directionNibble bs else 0)) := by
  have hfull (n : Nibble) : 0b1111#4 &&& n = n := BitVec.allOnes_and
  unfold joypLow
  cases actionSelected sel <;> cases directionSelected sel <;> simp [BitVec.not_or, hfull]

/-- The truth table of 41_joypad.md R106. -/
theorem joypRead_low_getLsbD (s : State) {i : Nat} (hi : i < 4) :
    (joypRead s).getLsbD i = !((!s.rf.JOYP.getLsbD 5 && (actionNibble s.btn).getLsbD i) ||
      (!s.rf.JOYP.getLsbD 4 && (directionNibble s.btn).getLsbD i)) := by
  rw [joypRead_getLsbD, if_pos hi, joypLow_eq, BitVec.getLsbD_not, decide_eq_true hi, Bool.true_and, BitVec.getLsbD_or,
    actionSelected, directionSelected]
  cases s.rf.JOYP.getLsbD 5 <;> cases s.rf.JOYP.getLsbD 4 <;> simp

theorem joypRead_low_getLsbD_eq_false_iff (s : State) {i : Nat} (hi : i < 4) :
    (joypRead s).getLsbD i = false ↔
      (s.rf.JOYP.getLsbD 5 = false ∧ (actionNibble s.btn).getLsbD i = true) ∨
        (s.rf.JOYP.getLsbD 4 = false ∧ (directionNibble s.btn).getLsbD i = true) := by
  rw [joypRead_low_getLsbD s hi, Bool.not_eq_false', Bool.or_eq_true]
  simp only [Bool.and_eq_true, Bool.not_eq_true']

theorem exec_rdJoyp (s : State) : exec .rdJoyp s = .next { s with response := some (joypRead s) } := rfl

/-- Settles O36: the two nibbles of the byte, the low one by the truth table at each position. -/
theorem joypadReadIsMultiplexed : Obligations.JoypadReadIsMultiplexed := by
  refine ⟨decodeAfterEncode .rdJoyp rfl, fun s => ⟨joypRead s, exec_rdJoyp s, joypRead_high s, ?_⟩⟩
  simp only [joypRead_low_getLsbD_eq_false_iff s, Nat.reduceLT, actionNibble, directionNibble, nibbleOf_getLsbD,
    and_self]

/-- With both groups selected, `low` does not tell the groups apart (41_joypad.md R103). -/
theorem joypLow_of_exchanged {sel : Byte} {bs cs : Buttons} (haction : actionSelected sel = true)
    (hdirection : directionSelected sel = true) (hact : actionNibble cs = directionNibble bs)
    (hdir : directionNibble cs = actionNibble bs) : joypLow sel cs = joypLow sel bs := by
  simp only [joypLow_eq, haction, hdirection, if_true, hact, hdir]
  rw [BitVec.or_comm]

/-- The read sees the flags in its low nibble only. -/
theorem joypRead_congr_btn {s : State} {bs : Buttons} (h : joypLow s.rf.JOYP bs = joypLow s.rf.JOYP s.btn) :
    joypRead { s with btn := bs } = joypRead s := by
  simp only [joypRead, h]

/-- Settles O37: the closed form of `low` at two of its four selections. -/
theorem selectionOfNoneAndBoth : Obligations.SelectionOfNoneAndBoth := by
  intro s
  refine ⟨joypRead s, exec_rdJoyp s, ?none, ?both⟩
  case none =>
    intro haction hdirection
    rw [joypRead_low, joypLow_eq, actionSelected, directionSelected, haction, hdirection]
    simp only [Bool.not_true, Bool.false_eq_true, if_false]
    rfl
  case both =>
    intro haction hdirection
    simp only [joypRead_low_getLsbD s, haction, hdirection, Nat.reduceLT, actionNibble, directionNibble,
      nibbleOf_getLsbD, Bool.not_false, Bool.true_and, true_and]
    intro bs hbs
    have hlow : joypLow s.rf.JOYP bs = joypLow s.rf.JOYP s.btn :=
      joypLow_of_exchanged (by rw [actionSelected, haction]; rfl) (by rw [directionSelected, hdirection]; rfl)
        (by rw [hbs]; rfl) (by rw [hbs]; rfl)
    rw [exec_rdJoyp, joypRead_congr_btn hlow]

end Sys2Proof.Machine
end

section
/-! The operations of the bus one by one (42_regfile_bus.md R120 to R130): the word of each, the byte it returns or
stores, and what the next STEP makes of a byte stored in `TMA` or `TAC`. -/

namespace Sys2Proof.Machine

theorem decode_encodeRead (r : Reg) : decode (encodeRead r) = .ok (Instr.rd r) :=
  decode_eq_ok_iff_carries.mpr (.rd r (toNat_encodeRead r))

theorem decode_encodeWrite (r : Reg) (v : Byte) : decode (encodeWrite r v) = .ok (Instr.wr r v) :=
  decode_eq_ok_iff_carries.mpr (.wr r v (toNat_encodeWrite r v))

theorem exec_wrDiv (v : Byte) (s : State) : exec (.wrDiv v) s = .refused .writeOfDivider := rfl

theorem exec_wrTima (v : Byte) (s : State) : exec (.wrTima v) s = .refused .writeOfTimerCounter := rfl

/-- Only STEP and RESET change the divider (10_state.md R13, R23). -/
theorem execAll_DIV {is : List Instr} {s t : State} (hstep : ∀ n, Instr.step n ∉ is) (hreset : Instr.reset ∉ is)
    (h : execAll is s = .next t) : t.rf.DIV = s.rf.DIV := by
  refine execAll_keeps (fun u => u.rf.DIV) (fun i hi u v huv => ?_) h
  obtain ⟨htimer, -⟩ := stateChangedOnlyByOwner i u v huv (ne_of_mem_of_not_mem hi hreset)
  obtain ⟨hDIV, -⟩ := htimer fun n => ne_of_mem_of_not_mem hi (hstep n)
  exact hDIV

/-- Settles O38: neither the first read nor an operation between the two writes the divider. -/
theorem readOfDivider : Obligations.ReadOfDivider := by
  refine ⟨decode_encodeRead .DIV, exec_rd .DIV, ?again⟩
  intro s t u is hstep hreset hfirst hsecond
  have hkept : t.rf.DIV = s.rf.DIV :=
    execAll_DIV (is := .rdDiv :: is) (by simpa using hstep) (by simpa using hreset) hfirst
  cases (exec_rd .DIV t).symm.trans hsecond
  exact congrArg some hkept

/-- A STEP of one tick from `TIMA` = 0xFF leaves the byte `TMA` holds (40_timer.md R85). -/
theorem exec_step_reloads {s : State} {n : Nat} (he : s.enabled) (hTIMA : s.rf.TIMA = 0xFF)
    (hone : (s.timaAcc + n) / s.period = 1) : ∃ t, exec (.step n) s = .next t ∧ t.rf.TIMA = s.rf.TMA := by
  obtain ⟨t, ht, -, -, -, hreloads⟩ := tickCountsOrReloads s n he hone
  obtain ⟨hTMA, -⟩ := hreloads hTIMA
  exact ⟨t, ht, hTMA⟩

/-- Settles O39: the read follows the whole tick, so it sees the reloaded byte. -/
theorem readOfTimerCounter : Obligations.ReadOfTimerCounter := by
  refine ⟨decode_encodeRead .TIMA, exec_rd .TIMA, ?reloaded⟩
  intro s n he hTIMA hone
  obtain ⟨t, ht, hTMA⟩ := exec_step_reloads he hTIMA hone
  exact ⟨_, (execAll_cons_of_next ht _).trans (execAll_cons_of_next (exec_rd .TIMA t) []), congrArg some hTMA⟩

/-- Settles O40: none of the three cells is `JOYP`, so each reads as stored. -/
theorem readsOfModuloControlAndFlag : Obligations.ReadsOfModuloControlAndFlag :=
  ⟨⟨decode_encodeRead .TMA, decode_encodeRead .TAC, decode_encodeRead .IF⟩,
    fun s => ⟨exec_rd .TMA s, exec_rd .TAC s, exec_rd .IF s⟩⟩

/-- Settles O42: the write leaves everything the tick depends on but `TMA`, so the tick reloads the byte written. -/
theorem writeOfModulo : Obligations.WriteOfModulo := by
  intro v s
  have hwr := exec_wr (r := .TMA) nofun nofun v s
  refine ⟨decode_encodeWrite .TMA v, hwr, ?nextTick⟩
  intro n he hTIMA hone
  obtain ⟨t, ht, hTMA⟩ :=
    exec_step_reloads (s := { s with rf := setCell s.rf .TMA v, response := none }) he hTIMA hone
  exact ⟨t, (execAll_cons_of_next hwr _).trans (execAll_cons_of_next ht []), hTMA⟩

/-- What a STEP makes of the stored control byte: enabled, it leaves the remainder of the period (40_timer.md R84);
disabled, it does not tick (R83). -/
theorem exec_step_by_control (n : Nat) (s : State) : ∃ t, exec (.step n) s = .next t ∧
    (s.rf.TAC.getLsbD s.platform.tacEnBit.val = true → t.timaAcc = (s.timaAcc + n) % s.period) ∧
    (s.rf.TAC.getLsbD s.platform.tacEnBit.val = false → t.rf.TIMA = s.rf.TIMA ∧ t.rf.IF = s.rf.IF) := by
  obtain ⟨t, ht⟩ : ∃ t, exec (.step n) s = .next t := ⟨_, exec_step n s⟩
  refine ⟨t, ht, ?enabled, ?disabled⟩
  case enabled =>
    intro hen
    cases (exec_step_of_enabled n hen).symm.trans ht
    rfl
  case disabled =>
    intro hen
    obtain ⟨u, hu, -, hcells⟩ := disabledStepOnlyFeedsAccumulator s n hen
    cases hu.symm.trans ht
    exact hcells

/-- Settles O43: the write leaves everything the STEP depends on but `TAC`, so the STEP goes by the byte written. -/
theorem writeOfControl : Obligations.WriteOfControl := by
  intro v s
  have hwr := exec_wr (r := .TAC) nofun nofun v s
  refine ⟨decode_encodeWrite .TAC v, hwr, ?nextStep⟩
  intro n
  obtain ⟨t, ht, hclauses⟩ := exec_step_by_control n { s with rf := setCell s.rf .TAC v, response := none }
  exact ⟨t, (execAll_cons_of_next hwr _).trans (execAll_cons_of_next ht []), hclauses⟩

/-- Settles O44: each write is `setCell`, and an interrupt output is a bit of the cell `IF` (60_exceptions.md R150). -/
theorem writesOfFlagAndSelect : Obligations.WritesOfFlagAndSelect := by
  intro v s
  exact ⟨decode_encodeWrite .IF v, decode_encodeWrite .JOYP v, exec_wr (r := .JOYP) nofun nofun v s,
    _, exec_wr (r := .IF) nofun nofun v s, rfl, rfl, rfl⟩

/-- Settles O10: the word is legal, and its operation has no meaning in any state. -/
theorem writeOfDividerRefused : Obligations.WriteOfDividerRefused :=
  fun v s => ⟨decode_encodeWrite .DIV v, exec_wrDiv v s⟩

/-- Settles O11: the word is legal, and its operation has no meaning in any state. -/
theorem writeOfTimerCounterRefused : Obligations.WriteOfTimerCounterRefused :=
  fun v s => ⟨decode_encodeWrite .TIMA v, exec_wrTima v s⟩

end Sys2Proof.Machine
end

section
/-! Completion (60_exceptions.md R140, R141, R158): exactly the admitted operations answer a next state, so a run of
admitted requests has no way to stop. -/

namespace Sys2Proof.Machine

/-- The two operations the spec refuses have no `Effect` (42_regfile_bus.md R129, R130). -/
theorem Effect.admitted {s t : State} {i : Instr} (h : Effect s i t) : Admitted i := by
  cases h with
  | rd r => cases r <;> trivial
  | _ => trivial

theorem exec_next_of_admitted {i : Instr} (h : Admitted i) (s : State) : ∃ t, exec i s = .next t := by
  cases i with
  | wrDiv v => exact h.elim
  | wrTima v => exact h.elim
  | _ => exact ⟨_, rfl⟩

/-- Settles O9: a fault has no constructor (log 24); an admitted operation completes, and what completes has an
`Effect`, which the refused operations lack. -/
theorem operationsCompleteWithoutFault : Obligations.OperationsCompleteWithoutFault := by
  intro i s
  refine ⟨nofun, fun hi => exec_next_of_admitted hi s, ?completed⟩
  case completed =>
    rintro ⟨t, ht⟩
    exact (effect_of_exec ht).admitted

/-- With admitted requests only, a step answers a next state and takes the oldest request, if there is one. -/
theorem step_next_of_admitted {s : State} (h : ∀ w ∈ s.requests, AdmittedWord w) :
    ∃ t, step s = .next t ∧ t.requests = s.requests.tail := by
  cases hq : s.requests with
  | nil => exact ⟨s, step_of_requests_nil hq, hq⟩
  | cons w ws =>
    obtain ⟨i, hdecode, hadmitted⟩ := h w (hq ▸ List.mem_cons_self)
    obtain ⟨t, ht⟩ := exec_next_of_admitted hadmitted (s.putRequests ws)
    obtain ⟨-, hrequests⟩ := operationsKeepPlatformAndRequests i _ t ht
    exact ⟨t, (step_of_decode_ok hq hdecode).trans ht, hrequests⟩

/-- Settles O8, by induction on the number of steps: a step answers a next state, whose requests are admitted again. -/
theorem admittedRequestsNeverStop : Obligations.AdmittedRequestsNeverStop := by
  intro k
  induction k with
  | zero => exact fun s _ => ⟨s, rfl, rfl⟩
  | succ k ih =>
    intro s h
    obtain ⟨u, hu, htail⟩ := step_next_of_admitted h
    have hadmitted : ∀ w ∈ u.requests, AdmittedWord w := fun w hw => h w (List.mem_of_mem_tail (htail ▸ hw))
    obtain ⟨t, ht, hdrop⟩ := ih u hadmitted
    refine ⟨t, (run_succ_of_next hu k).trans ht, ?_⟩
    rw [hdrop, htail, List.drop_tail]

end Sys2Proof.Machine
end

section
/-! The two interrupt sources (60_exceptions.md R143, R144): which operation raises which bit, and the read of `IF` that
follows it (R149). -/

namespace Sys2Proof.Machine

/-- An enabled STEP raises the timer interrupt when its ticks overflow `TIMA`, and only then (40_timer.md R87). -/
theorem exec_step_IF_of_enabled (n : Nat) {s : State} (he : s.enabled) :
    ∃ t, exec (.step n) s = .next t ∧ t.rf.IF =
      if 256 ≤ s.rf.TIMA.toNat + (s.timaAcc + n) / s.period then s.rf.IF ||| timerBit s.platform else s.rf.IF := by
  obtain ⟨t, ht, -, hclosed⟩ := timerClosedForm s n _ _ he rfl rfl
  refine ⟨t, ht, ?_⟩
  split at hclosed
  case isTrue hlt =>
    rw [if_neg (by omega)]
    exact hclosed.2
  case isFalse hle =>
    rw [if_pos (by omega)]
    exact hclosed.2

/-- WR.IF and RESET apart, `IF` is as it was, or STEP raised the timer interrupt on an overflow, or PRESS the joypad
interrupt on an edge. -/
theorem exec_IF_cases {i : Instr} {s t : State} (h : exec i s = .next t) (hreset : i ≠ .reset)
    (hwr : ∀ v, i ≠ .wrIf v) :
    t.rf.IF = s.rf.IF ∨
    (∃ n, i = .step n ∧ s.enabled ∧ 256 ≤ s.rf.TIMA.toNat + (s.timaAcc + n) / s.period ∧
      t.rf.IF = s.rf.IF ||| timerBit s.platform) ∨
    (∃ x, i = .press x ∧ flagOf s.btn x = false ∧ t.rf.IF = s.rf.IF ||| joypadBit s.platform) := by
  cases effect_of_exec h with
  | stepEnabled n he =>
    obtain ⟨u, hu, hIF⟩ := exec_step_IF_of_enabled n he
    cases hu.symm.trans h
    split at hIF
    case isTrue hoverflow => exact .inr (.inl ⟨n, rfl, he, hoverflow, hIF⟩)
    case isFalse => exact .inl hIF
  | stepDisabled n _ => exact .inl (wrap_iterate_IF _ _)
  | pressReleased x hx => exact .inr (.inr ⟨x, rfl, hx, rfl⟩)
  | wrIf v => exact absurd rfl (hwr v)
  | reset => exact absurd rfl hreset
  | _ => exact .inl rfl

/-- A bit that reads the same before and after has not gone from 0 to 1. -/
theorem bit_unchanged_not_raised {b : Bool} {P : Prop} (hbefore : b = false) (hafter : b = true) : P :=
  nomatch hbefore.symm.trans hafter

/-- Settles O25: the interrupts are two different bits of `IF` on a legal platform, so each rises from its own source
alone. -/
theorem interruptsRaisedOnlyByTheirSources : Obligations.InterruptsRaisedOnlyByTheirSources := by
  rintro i s t ⟨-, -, hbits, -⟩ h hreset hwr
  have hne : s.platform.ifTimerBit.val ≠ s.platform.ifJoypadBit.val := Fin.val_ne_of_ne hbits
  simp only [State.irqTimer, State.irqJoypad, exec_platform h]
  rcases exec_IF_cases h hreset hwr with hIF | ⟨n, rfl, he, hoverflow, hIF⟩ | ⟨x, rfl, hx, hIF⟩ <;> rw [hIF]
  case inl => exact ⟨bit_unchanged_not_raised, bit_unchanged_not_raised⟩
  case inr.inl =>
    rw [timerBit, getLsbD_or_one_shiftLeft_of_ne _ hne.symm]
    exact ⟨fun _ _ => ⟨n, rfl, he, hoverflow⟩, bit_unchanged_not_raised⟩
  case inr.inr =>
    rw [joypadBit, getLsbD_or_one_shiftLeft_of_ne _ hne]
    exact ⟨bit_unchanged_not_raised, fun _ _ => ⟨x, rfl, hx⟩⟩

/-- RD.IF right after an operation returns the `IF` that operation left (20_memory.md R45). -/
theorem execAll_rdIf {i : Instr} {s t : State} (h : exec i s = .next t) :
    execAll [i, .rdIf] s = .next { t with response := some t.rf.IF } :=
  (execAll_cons_of_next h _).trans (execAll_cons_of_next (exec_rd .IF t) [])

/-- Settles O28: the operation raises its bit of `IF`, and the read returns that byte. -/
theorem raisedInterruptSeenByNextRead : Obligations.RaisedInterruptSeenByNextRead := by
  refine ⟨?press, ?step⟩
  case press =>
    intro s x hx
    exact ⟨_, _, execAll_rdIf (execPress_of_released hx), rfl, getLsbD_or_one_shiftLeft_self _ _⟩
  case step =>
    intro s n he hoverflow
    obtain ⟨t, ht, hIF⟩ := exec_step_IF_of_enabled n he
    rw [if_pos hoverflow] at hIF
    refine ⟨_, _, execAll_rdIf ht, rfl, ?_⟩
    rw [hIF]
    exact getLsbD_or_one_shiftLeft_self _ _

end Sys2Proof.Machine
end

section
/-! RESET, and PRESS where its interrupt or its flag may surprise (70_reset_and_hazards.md R170, R177, R178). -/

namespace Sys2Proof.Machine

theorem exec_reset (s : State) : exec .reset s = .next { s with
    rf := s.platform.rfReset
    divAcc := 0
    timaAcc := 0
    btn := Buttons.released
    response := none } := rfl

theorem exec_press_of_released {x : Button} {s : State} (h : flagOf s.btn x = false) :
    exec (.press x) s =
      .next { s with rf := setIrq (joypadBit s.platform) s.rf, btn := setFlag s.btn x true, response := none } :=
  execPress_of_released h

theorem exec_press_of_pressed {x : Button} {s : State} (h : flagOf s.btn x = true) :
    exec (.press x) s = .next { s with response := none } :=
  execPress_of_pressed h

/-- Of two writes of a flag the later counts (10_state.md R25). -/
@[simp] theorem setFlag_setFlag (bs : Buttons) (x : Button) (v w : Bool) :
    setFlag (setFlag bs x v) x w = setFlag bs x w := by
  cases x <;> rfl

/-- Settles O2: the word is the encoder's, and RESET writes every piece of state but the parameters and the queue. -/
theorem resetRestoresCreationState : Obligations.ResetRestoresCreationState :=
  ⟨decodeAfterEncode .reset rfl, fun s => ⟨_, exec_reset s, fun _ => rfl, rfl, rfl, flagOf_released, rfl, rfl, rfl⟩⟩

/-- Settles O3: RESET releases every button, so the PRESS is one of a released button. -/
theorem pressAfterResetInterrupts : Obligations.PressAfterResetInterrupts := by
  intro s x
  refine ⟨_, (execAll_cons_of_next (exec_reset s) _).trans
    (execAll_cons_of_next (exec_press_of_released (flagOf_released x)) []), ?raised, ?pressed, ?others⟩
  case raised => exact getLsbD_or_one_shiftLeft_self _ _
  case pressed => exact flagOf_setFlag_self _ _ _
  case others => exact fun y hy => (flagOf_setFlag_of_ne _ _ hy).trans (flagOf_released y)

/-- Settles O35: RELEASE puts the flag back where PRESS found it, and leaves the interrupt PRESS raised. -/
theorem pressAndReleaseLeaveOnlyInterrupt : Obligations.PressAndReleaseLeaveOnlyInterrupt := by
  intro x s hx
  have hbtn : setFlag (setFlag s.btn x true) x false = s.btn := by rw [setFlag_setFlag, ← hx, setFlag_flagOf]
  rw [execAll_cons_of_next (exec_press_of_released hx), execAll_cons_of_next (exec_release x _), State.moveButton, hbtn]
  rfl

/-- Settles O29: the WR.IF puts back a byte read before the interrupt was raised, and the button, still pressed, raises
none again. -/
theorem readModifyWriteOfFlagLosesPress : Obligations.ReadModifyWriteOfFlagLosesPress := by
  intro s x m hx hclear
  have hread : exec .rdIf s = .next { s with response := some s.rf.IF } := exec_rd .IF s
  have hpress := exec_press_of_released (s := { s with response := some s.rf.IF }) hx
  have hwrite := exec_wr (r := .IF) nofun nofun (s.rf.IF &&& m)
  refine ⟨s.rf.IF, _, hread, (execAll_cons_of_next hread _).trans ((execAll_cons_of_next hpress _).trans
    ((execAll_cons_of_next (hwrite _) _).trans
      (execAll_cons_of_next (exec_press_of_pressed (flagOf_setFlag_self _ _ _)) []))), ?clear, ?pressed⟩
  case clear =>
    show (s.rf.IF &&& m).getLsbD s.platform.ifJoypadBit.val = false
    rw [BitVec.getLsbD_and, show s.rf.IF.getLsbD s.platform.ifJoypadBit.val = false from hclear, Bool.false_and]
  case pressed => exact flagOf_setFlag_self _ _ _

end Sys2Proof.Machine
end

section
/-! The ticks of a STEP where they may surprise: a backlog from the time the timer was disabled, and the extremes of `TMA`
(70_reset_and_hazards.md R173, R179). -/

namespace Sys2Proof.Machine

/-- The timer interrupt is pending after an enabled STEP if it was before or the ticks overflow `TIMA`
(40_timer.md R87). -/
theorem exec_step_irqTimer {s t : State} {n : Nat} (he : s.enabled) (ht : exec (.step n) s = .next t) :
    t.irqTimer = (s.irqTimer || decide (256 ≤ s.rf.TIMA.toNat + (s.timaAcc + n) / s.period)) := by
  obtain ⟨u, hu, hIF⟩ := exec_step_IF_of_enabled n he
  cases hu.symm.trans ht
  rw [State.irqTimer, exec_platform ht, hIF]
  split
  case isTrue h => rw [timerBit, getLsbD_or_one_shiftLeft_self, decide_eq_true h, Bool.or_true]
  case isFalse h => rw [decide_eq_false h, Bool.or_false, State.irqTimer]

/-- Settles O23: the closed form of `TIMA` for a cycle of one tick and for a cycle of 256. -/
theorem moduloExtremes : Obligations.ModuloExtremes := by
  rintro s n k he rfl
  obtain ⟨t, ht, -, hclosed⟩ := timerClosedForm s n _ _ he rfl rfl
  have hirq := exec_step_irqTimer he ht
  refine ⟨t, ht, ?full, ?zero⟩
  case full =>
    intro hTMA hTIMA hticks
    have hTMA255 : s.rf.TMA.toNat = 255 := congrArg BitVec.toNat hTMA
    have hTIMA255 : s.rf.TIMA.toNat = 255 := congrArg BitVec.toNat hTIMA
    rw [if_neg (by omega), hTMA255, Nat.mod_one] at hclosed
    obtain ⟨hfull, -⟩ := hclosed
    refine ⟨BitVec.eq_of_toNat_eq hfull, ?_⟩
    rw [hirq, decide_eq_true (by omega), Bool.or_true]
  case zero =>
    intro hTMA
    have hTMA0 : s.rf.TMA.toNat = 0 := congrArg BitVec.toNat hTMA
    have hlt : s.rf.TIMA.toNat < 256 := s.rf.TIMA.isLt
    refine ⟨?_, hirq⟩
    rw [hTMA0] at hclosed
    split at hclosed <;> omega

theorem exec_step_of_not_enabled (n : Nat) {s : State} (h : ¬s.enabled) :
    exec (.step n) s = .next { s with
      rf := wrap^[(s.divAcc + n) / 256] s.rf
      divAcc := (s.divAcc + n) % 256
      timaAcc := s.timaAcc + n
      response := none } :=
  execStep_of_not_enabled n h

/-- A STEP with the timer disabled, then a write of `TAC`: what the timer's next STEP depends on (40_timer.md R83, R86). -/
theorem execAll_step_wrTac_of_not_enabled (c : Nat) (v : Byte) {s : State} (h : ¬s.enabled) :
    ∃ u, (∀ is, execAll (.step c :: .wrTac v :: is) s = execAll is u) ∧ u.platform = s.platform ∧ u.rf.TAC = v ∧
      u.rf.TMA = s.rf.TMA ∧ u.rf.TIMA = s.rf.TIMA ∧ u.rf.IF = s.rf.IF ∧ u.timaAcc = s.timaAcc + c :=
  ⟨_, fun is => (execAll_cons_of_next (exec_step_of_not_enabled c h) _).trans
      (execAll_cons_of_next (exec_wr (r := .TAC) nofun nofun v _) is),
    rfl, rfl, wrap_iterate_TMA _ _, wrap_iterate_TIMA _ _, wrap_iterate_IF _ _, rfl⟩

/-- Settles O22: the enabled STEP has its closed form, with the cycles of the disabled one in `tima_acc`. -/
theorem backlogAppliedOnEnable : Obligations.BacklogAppliedOnEnable := by
  rintro s c n k d P v hdisabled hv rfl rfl rfl
  obtain ⟨u, hrun, hplatform, hTAC, hTMA, hTIMA, hIF, hacc⟩ := execAll_step_wrTac_of_not_enabled c v hdisabled
  have he : u.enabled := by
    rw [State.enabled, hplatform, hTAC]
    exact hv
  have hperiod : u.period = timaPeriod (timerControl s.platform v).clockSelect := by
    rw [State.period, hplatform, hTAC]
  obtain ⟨t, ht, htimaAcc, hclosed⟩ := timerClosedForm u n _ _ he rfl rfl
  have hirq := exec_step_irqTimer he ht
  rw [hacc, hperiod] at htimaAcc
  rw [hTIMA, hTMA, hIF, hacc, hperiod] at hclosed
  rw [hTIMA, hacc, hperiod] at hirq
  refine ⟨t, (hrun _).trans (execAll_cons_of_next ht []), htimaAcc, ?_⟩
  split at hclosed
  case isTrue hbelow =>
    rw [if_pos hbelow]
    exact hclosed
  case isFalse hoverflow =>
    obtain ⟨hcount, -⟩ := hclosed
    rw [if_neg hoverflow, hirq, decide_eq_true (by omega), Bool.or_true]
    exact ⟨hcount, rfl⟩

end Sys2Proof.Machine
end
